-- ==== Sys2Proof/Word.lean ====
section
/-! DEFINITION. The bit vectors of the block: bytes, addresses and hexadecimal digits (spec/00_scope.md R5, R6). -/

namespace Sys2Proof

/-- An 8-bit value: a general register, a memory cell, an instruction byte (R5, R10, R17). -/
abbrev Byte := BitVec 8

/-- A 16-bit value: PC, SP, the working address, an index of a memory cell (R5, R14, R15, R19). -/
abbrev Addr := BitVec 16

/-- One hexadecimal digit of the input buffer, 0x0 to 0xF (R20). -/
abbrev Digit := BitVec 4

end Sys2Proof
end

