-- ==== Sys2Proof/Config.lean ====
section
/-! DEFINITION. The block's parameters (spec/00_scope.md R5). The one parameter the spec leaves open, `MEM_INIT`,
is an argument of `Machine.State.powerOn` (log entry 1). No value of this hardware is free: nothing here is opaque. -/

namespace Sys2Proof

/-- STEP_BUDGET: fetch-decode-execute cycles per run (R5, R53). -/
def Config.stepBudget : Nat := 1000

/-- BUF_MAX: the digits the input buffer holds (R5, R20). -/
def Config.bufMax : Nat := 4

/-- The number of memory cells (R5, R17). -/
def Config.memSize : Nat := 65536

/-- What a memory cell reads as when the memory's list does not name it.
DESIGN CHOICE (log entry 1): it fixes how an array is written down as a list, not which arrays there are (every array of
65536 bytes is some list). It is also the power-on content `State.reset` stands for, which the spec leaves open. -/
def Config.unlistedByte : Byte := 0x00

end Sys2Proof
end

