-- ==== Sys2Proof/Syntax.lean ====
section
/-! DEFINITION. The instruction set: one constructor per row of spec/opcode_table.json (spec/30_encoding.md R44, R46). -/

namespace Sys2Proof

/-- The six assigned instructions and the fallback entry. Registers are implied by the opcode (R43); an operand is the
immediate byte or the direct address (R41, R42). -/
inductive Instr where
  /-- `HLT`, opcode 0x76 (R64). -/
  | hlt
  /-- `MOV A,B`, opcode 0x78 (R66). -/
  | movAB
  /-- `MVI A,d8`, opcode 0x3E (R67). -/
  | mviA (d8 : Byte)
  /-- `MVI B,d8`, opcode 0x06 (R68). -/
  | mviB (d8 : Byte)
  /-- `ADD B`, opcode 0x80 (R70). -/
  | addB
  /-- `STA a16`, opcode 0x32 (R69). -/
  | staA16 (a16 : Addr)
  /-- Any of the 250 unassigned opcode bytes, a one-byte no-op (R46, R65). -/
  | unassigned (op : Byte)
  deriving DecidableEq, Repr

end Sys2Proof
end

