-- ==== Sys2Proof/WellFormed.lean ====
section
/-! DEFINITION. Which instruction terms stand for an instruction of the block. -/

namespace Sys2Proof

/-- The six assigned opcode bytes (spec/30_encoding.md R44). -/
def assignedOpcodes : List Byte := [0x76, 0x78, 0x3E, 0x06, 0x80, 0x32]

/-- An instruction term is well formed when some bytes stand for it: the fallback entry carries a byte outside the
opcode table (R45); every immediate and every address is encodable (R41, R42). -/
def Instr.wf : Instr → Bool
  | .hlt => true
  | .movAB => true
  | .mviA _ => true
  | .mviB _ => true
  | .addB => true
  | .staA16 _ => true
  | .unassigned op => !assignedOpcodes.contains op

end Sys2Proof
end

