-- ==== Sys2Proof/Decode.lean ====
section
/-! DEFINITION. From bytes to an instruction and back (spec/30_encoding.md R39 to R48). -/

namespace Sys2Proof

/-- `hi:lo`, the 16-bit value with `hi` in bits 15:8 and `lo` in bits 7:0 (spec/00_scope.md R7). -/
def concatBytes (hi lo : Byte) : Addr := hi ++ lo

/-- The low byte of an address, bits 7:0 (R40). -/
def lowByte (a : Addr) : Byte := a.extractLsb' 0 8

/-- The high byte of an address, bits 15:8 (R40). -/
def highByte (a : Addr) : Byte := a.extractLsb' 8 8

/-- An entry of the opcode table: its format of R40, which fixes how many operand bytes follow, with the instruction
those bytes give. -/
inductive Entry where
  /-- F1: the opcode byte alone. -/
  | f1 (i : Instr)
  /-- F2: one operand byte d8. -/
  | f2 (i : Byte → Instr)
  /-- F3: two operand bytes, the low address byte first. -/
  | f3 (i : Byte → Byte → Instr)

/-- The dispatch table (R44, R45): all 8 bits of the opcode byte are compared, and a byte that is none of the six
selects the fallback entry, which takes no operand byte (R46). -/
def entryOf (op : Byte) : Entry :=
  if op = 0x76#8 then .f1 .hlt
  else if op = 0x78#8 then .f1 .movAB
  else if op = 0x3E#8 then .f2 fun d8 => .mviA d8
  else if op = 0x06#8 then .f2 fun d8 => .mviB d8
  else if op = 0x80#8 then .f1 .addB
  else if op = 0x32#8 then .f3 fun lo hi => .staA16 (concatBytes hi lo)
  else .f1 (.unassigned op)

/-- The only ways a list of bytes holds no whole instruction. The machine's own fetch never meets one: it reads as many
bytes as the entry asks for. -/
inductive DecodeError where
  /-- No byte at all. -/
  | noOpcode
  /-- The opcode byte `op` is there and one of its operand bytes is not. -/
  | missingOperand (op : Byte)
  deriving DecidableEq, Repr

/-- The instruction at the head of a list of bytes, with the bytes after it. -/
def decode : List Byte → Except DecodeError (Instr × List Byte)
  | [] => .error .noOpcode
  | op :: rest =>
    match entryOf op, rest with
    | .f1 i, rest => .ok (i, rest)
    | .f2 f, d8 :: rest => .ok (f d8, rest)
    | .f3 f, lo :: hi :: rest => .ok (f lo hi, rest)
    | .f2 _, [] => .error (.missingOperand op)
    | .f3 _, _ => .error (.missingOperand op)

/-- An instruction's length in bytes (R39). -/
def Instr.length : Instr → Nat
  | .hlt => 1
  | .movAB => 1
  | .mviA _ => 2
  | .mviB _ => 2
  | .addB => 1
  | .staA16 _ => 3
  | .unassigned _ => 1

/-- The bytes of an instruction in ascending address order (R28, R40, R44). -/
def encode : Instr → List Byte
  | .hlt => [0x76]
  | .movAB => [0x78]
  | .mviA d8 => [0x3E, d8]
  | .mviB d8 => [0x06, d8]
  | .addB => [0x80]
  | .staA16 a16 => [0x32, lowByte a16, highByte a16]
  | .unassigned op => [op]

/-- The three bytes of the instruction word `W = b0 | (b1 << 8) | (b2 << 16)` of R40, of which `nbits` bits are given
and the bits above are 0: the first byte is the one at the lowest address. -/
def wordBytes (nbits w : Nat) : List Byte :=
  let v := w % 2 ^ nbits
  [BitVec.ofNat 8 v, BitVec.ofNat 8 (v / 2 ^ 8), BitVec.ofNat 8 (v / 2 ^ 16)]

/-- The instruction the decoder reads from a word numbered as spec/opcode_table.json numbers it. -/
def decodeTableWord (nbits w : Nat) : Option Instr :=
  match decode (wordBytes nbits w) with
  | .ok (i, _) => some i
  | .error _ => none

end Sys2Proof
end

