-- ==== Sys2Proof/Machine/State.lean ====
section
/-! DEFINITION. The block's whole state (spec/10_state.md R10 to R22), how a step can stop, and the state after reset. -/

namespace Sys2Proof.Machine

/-- The general registers (R10). -/
inductive Reg where
  | A | B | C | D | E | H | L
  deriving DecidableEq, Repr

/-- The five flags, each one bit; they have no packed form (R16). -/
structure Flags where
  z  : Bool
  s  : Bool
  p  : Bool
  cy : Bool
  ac : Bool
  deriving DecidableEq, Repr

/-- The front panel's three modes (R18). -/
inductive Mode where
  | idle | addressEntry | dataEntry
  deriving DecidableEq, Repr

/-- The event kinds of spec/48_front_panel.md R76, with the reserved code of R93. -/
inductive Event where
  | key (d : Digit)
  | reset
  | examineMemory
  | next
  | previous
  | go
  | execute
  | reserved
  deriving DecidableEq, Repr

/-- One event as it stands on the input port: the signals `ev_code` and `ev_digit` (R74). -/
structure PortEvent where
  code  : BitVec 3
  digit : Digit
  deriving DecidableEq, Repr

/-- The memory array (R17) as a list of cells in one canonical form (`Memory.wf`, Machine/Ops.lean): addresses strictly
rising, no listed byte equal to `Config.unlistedByte`. -/
abbrev Memory := List Host.Cell

/-- The block's state. -/
structure State where
  /-- General register A, the accumulator (R10). -/
  regA : Byte
  /-- General register B (R10). -/
  regB : Byte
  /-- General register C (R10). -/
  regC : Byte
  /-- General register D (R10). -/
  regD : Byte
  /-- General register E (R10). -/
  regE : Byte
  /-- General register H (R10). -/
  regH : Byte
  /-- General register L (R10). -/
  regL : Byte
  /-- The program counter (R14). -/
  pc : Addr
  /-- The stack pointer, which no instruction uses (R15). -/
  sp : Addr
  /-- The flags, which no instruction uses (R16). -/
  flags : Flags
  /-- The memory array (R17). -/
  mem : Memory
  /-- The front panel's mode (R18). -/
  mode : Mode
  /-- The working address (R19). -/
  wa : Addr
  /-- The input buffer, oldest digit first (R20). -/
  buf : List Digit
  /-- A run is in progress (R21). -/
  active : Bool
  /-- HLT was executed in the current or last run (R21). -/
  halted : Bool
  /-- Fetch-decode-execute cycles of the current or last run (R21). -/
  steps : Nat
  /-- The model's own field (log entry 3): the events the host presents, oldest first. The head stands on the port now. -/
  input : List PortEvent
  deriving DecidableEq, Repr

/-- Why a step can stop with a fault: there is no reason. The block raises no exception and every step completes
(spec/60_exceptions.md R98, R102; spec/40_execution_loop.md R61), so this type has no constructor (log entry 8). -/
inductive Fault
  deriving DecidableEq, Repr

/-- Why a step can be refused. -/
inductive Refusal where
  /-- Raised only by an arm of `exec` whose instruction has no meaning yet; no arm does so. Safe: the run stops. -/
  | notModelled (mnemonic : String)
  deriving DecidableEq, Repr

/-- The block at power-on, its memory contents `MEM_INIT` given as the argument (spec/70_reset_and_hazards.md R113): the
assignments of R111, and no event presented yet. -/
def State.powerOn (memInit : Memory) : State where
  regA := 0x00
  regB := 0x00
  regC := 0x00
  regD := 0x00
  regE := 0x00
  regH := 0x00
  regL := 0x00
  pc := 0x0000
  sp := 0xFFFF
  flags := ⟨false, false, false, false, false⟩
  mem := memInit
  mode := .idle
  wa := 0x0000
  buf := []
  active := false
  halted := false
  steps := 0
  input := []

/-- The machine right after reset (R111, R113) with a memory that lists nothing (log entry 1). -/
def State.reset : State := State.powerOn []

end Sys2Proof.Machine
end

