-- ==== Sys2Proof/Machine/Ops.lean ====
section
/-! DEFINITION. The named operations over memory, PC and the run-local registers that the meanings and the step call.
The block has no exception to take and none to return from (spec/60_exceptions.md R102, R103), so no operation here
enters or leaves one. -/

namespace Sys2Proof.Machine

/-! ### Memory (spec/20_memory.md) -/

/-- The byte cell `a` holds. -/
def Memory.read : Memory → Addr → Byte
  | [], _ => Config.unlistedByte
  | (k, v) :: rest, a => if k = a.toNat then v else Memory.read rest a

/-- The memory with every entry of address `k` taken out. -/
def Memory.erase : Memory → Nat → Memory
  | [], _ => []
  | (k', v) :: rest, k => if k' = k then Memory.erase rest k else (k', v) :: Memory.erase rest k

/-- The memory with the entry `(k, v)` put in front of the first entry of a higher address. -/
def Memory.insert : Memory → Nat → Byte → Memory
  | [], k, v => [(k, v)]
  | (k', v') :: rest, k, v => if k < k' then (k, v) :: (k', v') :: rest else (k', v') :: Memory.insert rest k v

/-- `M[a] <- v` (R24). Writing the byte an unlisted cell reads as takes the entry out, so that equal memories are equal lists. -/
def Memory.write (m : Memory) (a : Addr) (v : Byte) : Memory :=
  if v = Config.unlistedByte then m.erase a.toNat else (m.erase a.toNat).insert a.toNat v

/-- Addresses strictly rising from `lo` on and inside the memory, no entry equal to what an unlisted cell reads as. -/
def Memory.wfFrom : Nat → Memory → Bool
  | _, [] => true
  | lo, (k, v) :: rest =>
    decide (lo ≤ k) && decide (k < Config.memSize) && decide (v ≠ Config.unlistedByte) && Memory.wfFrom (k + 1) rest

/-- The canonical form. -/
def Memory.wf (m : Memory) : Bool := Memory.wfFrom 0 m

/-- `MemRead(addr, 1)` (R8, R24). -/
def State.memRead (s : State) (a : Addr) : Byte := s.mem.read a

/-- `MemWrite(addr, 1, v)` (R8, R24). -/
def State.memWrite (s : State) (a : Addr) (v : Byte) : State := { s with mem := s.mem.write a v }

/-! ### Fetching (spec/40_execution_loop.md R54, R55) -/

/-- `pc <- (pc + 1) mod 2^16`. -/
def State.advancePc (s : State) : State := { s with pc := s.pc + 1 }

/-- `FetchByte()`: the byte at PC, and PC advanced by one (R54). -/
def State.fetchByte (s : State) : Byte × State := (s.memRead s.pc, s.advancePc)

/-- `steps <- steps + 1` (R55). -/
def State.countStep (s : State) : State := { s with steps := s.steps + 1 }

/-- The operand bytes a table entry asks for, each by `FetchByte`, in ascending address order (R28, R55). -/
def State.fetchOperands : Entry → State → Instr × State
  | .f1 i, s => (i, s)
  | .f2 f, s => (f s.fetchByte.1, s.fetchByte.2)
  | .f3 f, s => (f s.fetchByte.1 s.fetchByte.2.fetchByte.1, s.fetchByte.2.fetchByte.2)

/-- `op <- FetchByte(); steps <- steps + 1`, then the operand bytes of `entry(op)` (R55, R56): the instruction at PC, and
the state its effect starts from. All operand bytes are read before the effect writes anything (R55). -/
def State.fetchInstr (s : State) : Instr × State :=
  State.fetchOperands (entryOf s.fetchByte.1) s.fetchByte.2.countStep

/-! ### The run (spec/40_execution_loop.md R52, R53, R60, R63) -/

/-- `halted <- 1` (R64). -/
def State.setHalted (s : State) : State := { s with halted := true }

/-- The run start (R52). -/
def State.startRun (s : State) (start : Addr) : State :=
  { s with pc := start, active := true, halted := false, steps := 0 }

/-- The test before each step: `halted = 0 and steps < STEP_BUDGET` (R53). -/
def State.runTest (s : State) : Bool := !s.halted && decide (s.steps < Config.stepBudget)

/-- The run end (R60): `active <- 0`, and the front panel goes to Idle (R90, R91). The result is A, which stays where it is. -/
def State.endRun (s : State) : State := { s with active := false, mode := .idle }

/-- A core step is enabled (R63). -/
def State.coreEnabled (s : State) : Bool := s.active && s.runTest

/-- A run-end step is enabled: the test of R53 fails in a run (R63; log entry 9 on `steps` above 1000). -/
def State.runEndEnabled (s : State) : Bool := s.active && !s.runTest

/-- An event step is enabled: `ev_ready = 1` and `ev_valid = 1` (R63, R75). -/
def State.eventEnabled (s : State) : Bool := !s.active && !s.input.isEmpty

/-! ### Placing an instruction (for `withFetchWord`, log entry 4) -/

/-- The bytes stored at `a` and the addresses after it, wrapping at the top of memory. -/
def Memory.writeBytes : Memory → Addr → List Byte → Memory
  | m, _, [] => m
  | m, a, b :: bs => Memory.writeBytes (m.write a b) (a + 1) bs

/-- The state in which the next step is a core step that fetches at PC: memory holds `bytes` there, a run is active, no
HLT has been executed in it, and the budget is not spent. -/
def State.placeAtPc (s : State) (bytes : List Byte) : State :=
  { s with
    mem := s.mem.writeBytes s.pc bytes
    active := true
    halted := false
    steps := if s.steps < Config.stepBudget then s.steps else 0 }

end Sys2Proof.Machine
end

