-- ==== Sys2Proof/Machine/FrontPanel.lean ====
section
/-! DEFINITION. The front-panel FSM (spec/48_front_panel.md): the event port, the buffer, and one function per rule of
the transition table, dispatched as R94 tabulates. -/

namespace Sys2Proof.Machine

/-! ### The event port -/

/-- The event a port code stands for (R74). `ev_digit` is read for a Key event only. -/
def PortEvent.event (e : PortEvent) : Event :=
  if e.code = 0b000 then .key e.digit
  else if e.code = 0b001 then .reset
  else if e.code = 0b010 then .examineMemory
  else if e.code = 0b011 then .next
  else if e.code = 0b100 then .previous
  else if e.code = 0b101 then .go
  else if e.code = 0b110 then .execute
  else .reserved

/-- The host presents one more event, behind those it already holds (R75; log entry 3). -/
def State.present (s : State) (e : PortEvent) : State := { s with input := s.input ++ [e] }

/-! ### The buffer -/

/-- `last4(buf ++ [d])` (R77). -/
def appendDigit (buf : List Digit) (d : Digit) : List Digit :=
  (buf ++ [d]).drop ((buf ++ [d]).length - Config.bufMax)

/-- The buffer's value: its digits as a hexadecimal integer, the oldest the most significant (R78). -/
def bufValue (buf : List Digit) : Nat := buf.foldl (fun acc d => acc * 16 + d.toNat) 0

/-- The address an AddressEntry commit resolves: 0x0000 for an empty buffer (R84, R90). -/
def bufAddress : List Digit → Addr
  | [] => 0x0000
  | d :: ds => BitVec.ofNat 16 (bufValue (d :: ds))

/-- The byte a DataEntry commit writes: `value(buf) mod 2^8` (R79). -/
def bufByte (buf : List Digit) : Byte := BitVec.ofNat 8 (bufValue buf)

/-! ### The transitions -/

/-- Reset: the assignments of spec/70_reset_and_hazards.md R111; memory is not changed (R80, R112), nor what the host presents. -/
def State.panelReset (s : State) : State := { State.powerOn s.mem with input := s.input }

/-- An event that is ignored: accepted, consumed, nothing changed (R81, R87, R88, R92, R93). -/
def State.panelIgnore (s : State) : State := s

/-- Key(d) in AddressEntry or DataEntry (R82). -/
def State.panelKey (s : State) (d : Digit) : State := { s with buf := appendDigit s.buf d }

/-- ExamineMemory, in any mode (R83). -/
def State.panelExamine (s : State) : State := { s with buf := [], mode := .addressEntry }

/-- Go, in any mode; it starts no run (R89). -/
def State.panelGo (s : State) : State := { s with buf := [], mode := .addressEntry }

/-- Next in AddressEntry: the buffer becomes the working address (R84). -/
def State.panelCommitAddress (s : State) : State :=
  { s with wa := bufAddress s.buf, buf := [], mode := .dataEntry }

/-- The write of a DataEntry commit: only when the buffer is not empty (R79, R85, R86). -/
def State.panelDeposit (s : State) : State :=
  match s.buf with
  | [] => s
  | d :: ds => s.memWrite s.wa (bufByte (d :: ds))

/-- Next in DataEntry: the write, then `wa <- (wa + 1) mod 2^16; buf <- []` (R85). -/
def State.panelDepositNext (s : State) : State :=
  { s.panelDeposit with wa := s.wa + 1, buf := [] }

/-- Previous in DataEntry: the write, then `wa <- (wa - 1) mod 2^16; buf <- []` (R86). -/
def State.panelDepositPrevious (s : State) : State :=
  { s.panelDeposit with wa := s.wa - 1, buf := [] }

/-- Execute in AddressEntry: the start address is the buffer's; the buffer is cleared and the run starts (R90). The mode
becomes Idle when the run ends (`State.endRun`). -/
def State.panelExecuteBuffer (s : State) : State :=
  { s with buf := [] }.startRun (bufAddress s.buf)

/-- Execute in DataEntry: the start address is the working address; digits in the buffer are dropped (R91). -/
def State.panelExecuteWorking (s : State) : State :=
  { s with buf := [] }.startRun s.wa

/-- The transition table, cell by cell as R94 gives it. -/
def State.panelStep (s : State) (e : Event) : State :=
  match e, s.mode with
  | .key _, .idle => s.panelIgnore
  | .key d, .addressEntry => s.panelKey d
  | .key d, .dataEntry => s.panelKey d
  | .reset, .idle => s.panelReset
  | .reset, .addressEntry => s.panelReset
  | .reset, .dataEntry => s.panelReset
  | .examineMemory, .idle => s.panelExamine
  | .examineMemory, .addressEntry => s.panelExamine
  | .examineMemory, .dataEntry => s.panelExamine
  | .next, .idle => s.panelIgnore
  | .next, .addressEntry => s.panelCommitAddress
  | .next, .dataEntry => s.panelDepositNext
  | .previous, .idle => s.panelIgnore
  | .previous, .addressEntry => s.panelIgnore
  | .previous, .dataEntry => s.panelDepositPrevious
  | .go, .idle => s.panelGo
  | .go, .addressEntry => s.panelGo
  | .go, .dataEntry => s.panelGo
  | .execute, .idle => s.panelIgnore
  | .execute, .addressEntry => s.panelExecuteBuffer
  | .execute, .dataEntry => s.panelExecuteWorking
  | .reserved, .idle => s.panelIgnore
  | .reserved, .addressEntry => s.panelIgnore
  | .reserved, .dataEntry => s.panelIgnore

/-- One event step: the event on the port is accepted and consumed, and the rule for it and the mode applies (R75). The
step calls it only when an event is on the port; with none there is nothing to accept. -/
def State.acceptEvent (s : State) : State :=
  match s.input with
  | [] => s
  | e :: rest => { s with input := rest }.panelStep e.event

end Sys2Proof.Machine
end

