-- ==== Sys2Proof/Machine/Operands.lean ====
section
/-! DEFINITION. The operand forms (spec/42_data_transfer.md): a register implied by the opcode, the immediate byte, the
direct address. The immediate is the operand byte taken whole (spec/30_encoding.md R41), so it needs no operation. -/

namespace Sys2Proof.Machine

/-- `x[r]` (spec/00_scope.md R8). No register is hardwired (R10). -/
def State.readReg (s : State) : Reg → Byte
  | .A => s.regA
  | .B => s.regB
  | .C => s.regC
  | .D => s.regD
  | .E => s.regE
  | .H => s.regH
  | .L => s.regL

/-- `x[r] <- v` (R8). -/
def State.writeReg (s : State) : Reg → Byte → State
  | .A, v => { s with regA := v }
  | .B, v => { s with regB := v }
  | .C, v => { s with regC := v }
  | .D, v => { s with regD := v }
  | .E, v => { s with regE := v }
  | .H, v => { s with regH := v }
  | .L, v => { s with regL := v }

/-- The direct form: register `r` stored at `a16`, the index of the cell itself, no translation (R33, R42). -/
def State.storeDirect (s : State) (a16 : Addr) (r : Reg) : State := s.memWrite a16 (s.readReg r)

end Sys2Proof.Machine
end

