-- ==== Sys2Proof/Machine/Outputs.lean ====
section
/-! DEFINITION. The observation outputs (spec/48_front_panel.md R74, R96): functions of the state, without side effect. -/

namespace Sys2Proof.Machine

/-- The mode's 2-bit code (spec/10_state.md R18); 0b11 is never held. -/
def Mode.code : Mode → BitVec 2
  | .idle => 0b00
  | .addressEntry => 0b01
  | .dataEntry => 0b10

/-- The output signals of R74, under their names there. -/
structure Outputs where
  evReady   : Bool
  busy      : Bool
  mode      : BitVec 2
  wa        : Addr
  bufLen    : BitVec 3
  bufDigits : BitVec 16
  memAtWa   : Byte
  regA      : Byte
  regB      : Byte
  regC      : Byte
  regD      : Byte
  regE      : Byte
  regH      : Byte
  regL      : Byte
  regPC     : Addr
  regSP     : Addr
  flagZ     : Bool
  flagS     : Bool
  flagP     : Bool
  flagCY    : Bool
  flagAC    : Bool
  runHalted : Bool
  runSteps  : BitVec 10
  deriving DecidableEq, Repr

/-- What the outputs show in a state (R74, R96). -/
def State.outputs (s : State) : Outputs where
  evReady := !s.active
  busy := s.active
  mode := s.mode.code
  wa := s.wa
  bufLen := BitVec.ofNat 3 s.buf.length
  bufDigits := BitVec.ofNat 16 (bufValue s.buf)
  memAtWa := s.memRead s.wa
  regA := s.readReg .A
  regB := s.readReg .B
  regC := s.readReg .C
  regD := s.readReg .D
  regE := s.readReg .E
  regH := s.readReg .H
  regL := s.readReg .L
  regPC := s.pc
  regSP := s.sp
  flagZ := s.flags.z
  flagS := s.flags.s
  flagP := s.flags.p
  flagCY := s.flags.cy
  flagAC := s.flags.ac
  runHalted := s.halted
  runSteps := BitVec.ofNat 10 s.steps

end Sys2Proof.Machine
end

