-- ==== Sys2Proof/Machine/Arithmetic.lean ====
section
/-! DEFINITION. Arithmetic instructions and the ALU (spec/43_arithmetic.md). Each meaning starts from the state in which
the instruction's bytes have been fetched and the step counted (R55). -/

namespace Sys2Proof.Machine

/-- The ALU's one operation: 8-bit unsigned addition, computed exactly and narrowed modulo 2^8 (R70, R71). -/
def aluAdd (x y : Byte) : Byte := BitVec.ofNat 8 (x.toNat + y.toNat)

/-- ADD B: `x[A] <- (x[A] + x[B]) mod 2^8`; no flag is written (R70, R72). -/
def execAddB (s : State) : Host.Outcome State Fault Refusal :=
  .next (s.writeReg .A (aluAdd (s.readReg .A) (s.readReg .B)))

end Sys2Proof.Machine
end

