-- ==== Sys2Proof/Machine/Control.lean ====
section
/-! DEFINITION. Control instructions (spec/41_control.md). Each meaning starts from the state in which the instruction's
bytes have been fetched and the step counted (R55). -/

namespace Sys2Proof.Machine

/-- HLT: `halted <- 1` (R64). PC keeps the value the opcode fetch gave it. -/
def execHlt (s : State) : Host.Outcome State Fault Refusal := .next s.setHalted

/-- An unassigned opcode: no effect (R65), whichever byte it is. -/
def execUnassigned (_op : Byte) (s : State) : Host.Outcome State Fault Refusal := .next s

end Sys2Proof.Machine
end

