-- ==== Sys2Proof/Machine/DataTransfer.lean ====
section
/-! DEFINITION. Data transfer instructions (spec/42_data_transfer.md). Each meaning starts from the state in which the
instruction's bytes have been fetched and the step counted (R55). -/

namespace Sys2Proof.Machine

/-- MOV A,B: `x[A] <- x[B]` (R66). -/
def execMovAB (s : State) : Host.Outcome State Fault Refusal := .next (s.writeReg .A (s.readReg .B))

/-- MVI A,d8: `x[A] <- d8` (R67). -/
def execMviA (d8 : Byte) (s : State) : Host.Outcome State Fault Refusal := .next (s.writeReg .A d8)

/-- MVI B,d8: `x[B] <- d8` (R68). -/
def execMviB (d8 : Byte) (s : State) : Host.Outcome State Fault Refusal := .next (s.writeReg .B d8)

/-- STA a16: `MemWrite(a16, 1, x[A])` (R69). -/
def execStaA16 (a16 : Addr) (s : State) : Host.Outcome State Fault Refusal := .next (s.storeDirect a16 .A)

end Sys2Proof.Machine
end

