-- ==== Sys2Proof/Machine/Flags.lean ====
section
/-! DEFINITION. Flags. No instruction of this hardware computes or reads one (spec/43_arithmetic.md R72), so no meaning
calls anything of this file. It writes down, once, the convention R73 records for opcodes this hardware does not have. -/

namespace Sys2Proof.Machine

/-- The number of 1 bits of a byte. -/
def onesCount (r : Byte) : Nat := ((List.range 8).filter fun k => r.getLsbD k).length

/-- The flags R73's convention gives an 8-bit addition: Zero on result 0, Sign on bit 7, Parity on an even number of
1 bits, Carry and AuxCarry on the carry out of bit 7 and of bit 3. PRESUMED for the last two (log entry 15: the spec marks
the carry-out reading as general knowledge). NOT APPLIED by any instruction: ADD B writes no flag (R70, R72). -/
def conventionAddFlags (x y : Byte) : Flags where
  z := decide (x + y = 0x00)
  s := (x + y).getLsbD 7
  p := decide (onesCount (x + y) % 2 = 0)
  cy := decide (2 ^ 8 ≤ x.toNat + y.toNat)
  ac := decide (2 ^ 4 ≤ x.toNat % 2 ^ 4 + y.toNat % 2 ^ 4)

end Sys2Proof.Machine
end

