-- ==== Sys2Proof/Machine/Dispatch.lean ====
section
/-! DEFINITION. The effect of each entry of the opcode table (spec/40_execution_loop.md R56), one arm per instruction. -/

namespace Sys2Proof.Machine

def exec (i : Instr) (s : State) : Host.Outcome State Fault Refusal :=
  match i with
  | .hlt => Sys2Proof.Machine.execHlt s
  | .movAB => Sys2Proof.Machine.execMovAB s
  | .mviA d8 => Sys2Proof.Machine.execMviA d8 s
  | .mviB d8 => Sys2Proof.Machine.execMviB d8 s
  | .addB => Sys2Proof.Machine.execAddB s
  | .staA16 a16 => Sys2Proof.Machine.execStaA16 a16 s
  | .unassigned op => Sys2Proof.Machine.execUnassigned op s

end Sys2Proof.Machine
end

