-- ==== Sys2Proof/Machine/Run.lean ====
section
/-! DEFINITION. One core step, and the run as a whole, as the pseudocode of spec/40_execution_loop.md R51 composes it. The
step function calls `coreStep`; `runProgram` is the run in one piece, for statements. -/

namespace Sys2Proof.Machine

/-- One fetch-decode-execute cycle (R55): the instruction at PC is fetched, the step counted, and its effect performed. -/
def coreStep (s : State) : Host.Outcome State Fault Refusal := exec s.fetchInstr.1 s.fetchInstr.2

/-- `while halted = 0 and steps < STEP_BUDGET: …` (R51, R53), for at most `fuel` rounds. -/
def runLoop : Nat → State → Host.Outcome State Fault Refusal
  | 0, s => .next s
  | fuel + 1, s =>
    if s.runTest then
      match coreStep s with
      | .next t => runLoop fuel t
      | .fault r => .fault r
      | .refused r => .refused r
    else .next s

/-- `run(start)` of R51: the run start, the loop, the run end. As `steps` starts at 0 and every round counts one, 1000
rounds are all the loop can have. The result is A in the state it ends in (R60). -/
def runProgram (start : Addr) (s : State) : Host.Outcome State Fault Refusal :=
  match runLoop Config.stepBudget (s.startRun start) with
  | .next t => .next t.endRun
  | .fault r => .fault r
  | .refused r => .refused r

end Sys2Proof.Machine
end

