-- ==== Sys2Proof/Machine/Step.lean ====
section
/-! DEFINITION. One step of the block (spec/40_execution_loop.md R63). -/

namespace Sys2Proof.Machine

/-- A core step, a run-end step or an event step, each under its own condition (R63). When none is enabled the block
waits for the host, and its state stands (log entry 2). -/
def step (s : State) : Host.Outcome State Fault Refusal :=
  if s.coreEnabled then coreStep s
  else if s.runEndEnabled then .next s.endRun
  else if s.eventEnabled then .next s.acceptEvent
  else .next s

/-- The state whose very next step fetches and runs the instruction of the table word `w` (log entry 4). -/
def State.withFetchWord (s : State) (nbits w : Nat) : State := s.placeAtPc (wordBytes nbits w)

end Sys2Proof.Machine
end

