-- ==== Sys2Proof/Safety.lean ====
section
/-! DEFINITION. What a good state is, which states the block can be in, and the terms statements about runs use. -/

namespace Sys2Proof.Machine

/-- What holds of every state the block can be in: memory is in its canonical form; the buffer holds at most 4 digits
(R20); `steps` is at most 1000 (R21); during a run the front panel is in an input mode with an empty buffer, and Idle
comes only with an empty buffer (R90, R91, R94); `halted` is set only by a counted step (R55, R64). -/
abbrev State.Inv (s : State) : Prop :=
  s.mem.wf = true ∧
  s.buf.length ≤ Config.bufMax ∧
  s.steps ≤ Config.stepBudget ∧
  (s.active = true → s.mode ≠ .idle ∧ s.buf = []) ∧
  (s.mode = .idle → s.buf = []) ∧
  (s.halted = true → 1 ≤ s.steps)

/-- C, D, E, H, L, SP and the flags hold their reset values (R12, R15, R16). -/
abbrev State.UnusedAtReset (s : State) : Prop :=
  s.regC = 0x00 ∧ s.regD = 0x00 ∧ s.regE = 0x00 ∧ s.regH = 0x00 ∧ s.regL = 0x00 ∧ s.sp = 0xFFFF ∧
  s.flags = ⟨false, false, false, false, false⟩

/-- The states the block can be in: power-on with any memory contents (R113), then the block's own steps (R63) and the
host presenting events (R74), in any order. -/
inductive Reachable : State → Prop where
  | powerOn (memInit : Memory) (h : memInit.wf = true) : Reachable (State.powerOn memInit)
  | present (s : State) (e : PortEvent) (h : Reachable s) : Reachable (s.present e)
  | step (s t : State) (h : Reachable s) (hs : step s = .next t) : Reachable t

/-- A core step is enabled, in the words of spec/40_execution_loop.md R63: `active = 1 and halted = 0 and steps < 1000`. -/
abbrev State.Running (s : State) : Prop := s.active = true ∧ s.halted = false ∧ s.steps < 1000

/-- An event step is enabled: no run is in progress and `p` stands on the port, with `rest` behind it (R63, R75). -/
abbrev State.Offered (s : State) (p : PortEvent) (rest : List PortEvent) : Prop := s.active = false ∧ s.input = p :: rest

/-- The general register an instruction writes, if any (the table of spec/10_state.md R12). -/
def destination : Instr → Option Reg
  | .hlt => none
  | .movAB => some .A
  | .mviA _ => some .A
  | .mviB _ => some .B
  | .addB => some .A
  | .staA16 _ => none
  | .unassigned _ => none

/-- This state accepts the event `e` in its next step (R75). -/
abbrev State.accepts (s : State) (e : Event) : Prop :=
  s.active = false ∧ ∃ p rest, s.input = p :: rest ∧ p.event = e

/-- `k` steps of the block, stopping at the first that does not answer a next state (`Host.Core.run` of this machine, in
the model's own types). -/
def runSteps : Nat → State → Host.Outcome State Fault Refusal
  | 0, s => .next s
  | k + 1, s =>
    match step s with
    | .next t => runSteps k t
    | .fault r => .fault r
    | .refused r => .refused r

/-- The addresses the core step enabled in `s` reads its instruction's bytes from (R28). -/
def State.fetchAddrs (s : State) : List Addr :=
  (List.range s.fetchInstr.1.length).map fun k => s.pc + BitVec.ofNat 16 k

/-- The addresses fetched by up to `n` core steps from `s`, in order, until no core step is enabled (R62). -/
def fetchTrace : Nat → State → List Addr
  | 0, _ => []
  | n + 1, s =>
    if s.coreEnabled then
      s.fetchAddrs ++
        match coreStep s with
        | .next t => fetchTrace n t
        | .fault _ => []
        | .refused _ => []
    else []

end Sys2Proof.Machine
end

