-- ==== Sys2Proof/Certificates/Slice0/Obligations.lean ====
section
/-! DEFINITION. The statements about the model. Each docstring names the rule of spec/ it formalises, or says that it is
the model's or the spec's own choice and where that is declared. -/

open Sys2Proof Sys2Proof.Machine

/-! ### Encoding -/

/-- 30_encoding.md R39 to R46: for every well-formed instruction, decoding its bytes gives it back and leaves what follows. -/
def Obligations.DecodeOfEncodeIsIdentity : Prop :=
  ∀ (i : Instr), i.wf = true → ∀ rest : List Byte, decode (encode i ++ rest) = .ok (i, rest)

/-- The other direction: what is decoded is well formed, and the bytes consumed are its encoding. -/
def Obligations.DecodedBytesAreTheEncoding : Prop :=
  ∀ (bs rest : List Byte) (i : Instr), decode bs = .ok (i, rest) → i.wf = true ∧ bs = encode i ++ rest

/-- R39: 1, 2 or 3 bytes, decided by the opcode byte alone. -/
def Obligations.LengthDecidedByOpcodeByte : Prop :=
  ∀ (op : Byte) (rest : List Byte), 2 ≤ rest.length →
    ∃ i : Instr, decode (op :: rest) = .ok (i, rest.drop (i.length - 1)) ∧
      i.length = if op = 0x3E ∨ op = 0x06 then 2 else if op = 0x32 then 3 else 1

/-- R45, with the operand forms of R41 and R42: the opcode byte selects exactly one entry, and a byte that is none of the
six selects the fallback entry. -/
def Obligations.OpcodeByteSelectsItsEntry : Prop :=
  ∀ op b1 b2 : Byte,
    (op = 0x76 → decode [op, b1, b2] = .ok (.hlt, [b1, b2])) ∧
    (op = 0x78 → decode [op, b1, b2] = .ok (.movAB, [b1, b2])) ∧
    (op = 0x3E → decode [op, b1, b2] = .ok (.mviA b1, [b2])) ∧
    (op = 0x06 → decode [op, b1, b2] = .ok (.mviB b1, [b2])) ∧
    (op = 0x80 → decode [op, b1, b2] = .ok (.addB, [b1, b2])) ∧
    (op = 0x32 → ∃ a : Addr, a.toNat = b2.toNat * 256 + b1.toNat ∧ decode [op, b1, b2] = .ok (.staA16 a, [])) ∧
    (op ≠ 0x76 → op ≠ 0x78 → op ≠ 0x3E → op ≠ 0x06 → op ≠ 0x80 → op ≠ 0x32 →
      decode [op, b1, b2] = .ok (.unassigned op, [b1, b2]))

/-- Words written out from R40 and R44 decode to the instructions they stand for (a sanity check). -/
def Obligations.TableWordsDecode : Prop :=
  decodeTableWord 8 0x76 = some .hlt ∧ decodeTableWord 8 0x78 = some .movAB ∧
  decodeTableWord 16 0x053E = some (.mviA 0x05) ∧ decodeTableWord 16 0x0306 = some (.mviB 0x03) ∧
  decodeTableWord 8 0x80 = some .addB ∧ decodeTableWord 24 0x300032 = some (.staA16 0x3000) ∧
  decodeTableWord 8 0x0E = some (.unassigned 0x0E) ∧ decodeTableWord 8 0xC3 = some (.unassigned 0xC3)

/-! ### The step relation -/

/-- 40_execution_loop.md R55 and R56: when a core step is enabled and the bytes at PC decode to `i`, the step is the
effect of `i` on the state with PC moved past the instruction and the step counted. That HLT counts too is the spec's
decision D5. -/
def Obligations.StepRunsDecodedInstruction : Prop :=
  ∀ (s : State) (i : Instr) (rest : List Byte), s.Running →
    decode [s.memRead s.pc, s.memRead (s.pc + 1), s.memRead (s.pc + 2)] = .ok (i, rest) →
    step s = exec i { s with pc := s.pc + BitVec.ofNat 16 i.length, steps := s.steps + 1 }

/-- R63 (the spec's decision D1): the three kinds of step, each under its condition, no two in one state. That a state
with none enabled stands as it is under `step` is the model's choice (log entry 2), and the reading of `steps` above 1000
is the model's (log entry 9). -/
def Obligations.OneKindOfStepAtATime : Prop :=
  ∀ s : State,
    (s.coreEnabled = true ↔ s.Running) ∧
    (s.runEndEnabled = true ↔ s.active = true ∧ (s.halted = true ∨ 1000 ≤ s.steps)) ∧
    (s.eventEnabled = true ↔ s.active = false ∧ s.input ≠ []) ∧
    ¬(s.coreEnabled = true ∧ s.runEndEnabled = true) ∧
    ¬(s.coreEnabled = true ∧ s.eventEnabled = true) ∧
    ¬(s.runEndEnabled = true ∧ s.eventEnabled = true) ∧
    (s.coreEnabled = false → s.runEndEnabled = false → s.eventEnabled = false →
      s.active = false ∧ s.input = [] ∧ step s = .next s)

/-- 60_exceptions.md R98: nothing raises an exception. Every opcode byte decodes, every instruction completes, every
enabled step completes, and there is no fault to name. -/
def Obligations.NothingRaisesAnException : Prop :=
  (∀ op b1 b2 : Byte, ∃ i rest, decode [op, b1, b2] = .ok (i, rest)) ∧
  (∀ (i : Instr) (s : State), ∃ t, exec i s = .next t) ∧
  (∀ s : State, s.active = true ∨ s.input ≠ [] → ∃ t, step s = .next t) ∧
  (∀ _ : Fault, False)

/-! ### The instructions' own effects -/

/-- The effects of 41_control.md R64 and R65: HLT sets `halted` and nothing else; an unassigned opcode has no effect. -/
def Obligations.ControlInstructionsComplete : Prop :=
  (∀ s : State, exec .hlt s = .next { s with halted := true }) ∧
  (∀ (op : Byte) (s : State), exec (.unassigned op) s = .next s)

/-- The effects of 42_data_transfer.md R66, R67 and R68. -/
def Obligations.RegisterTransfersComplete : Prop :=
  (∀ s : State, exec .movAB s = .next { s with regA := s.regB }) ∧
  (∀ (d8 : Byte) (s : State), exec (.mviA d8) s = .next { s with regA := d8 }) ∧
  (∀ (d8 : Byte) (s : State), exec (.mviB d8) s = .next { s with regB := d8 })

/-- The effect of 43_arithmetic.md R70: A becomes (A + B) mod 256, and nothing else changes. -/
def Obligations.AddBCompletes : Prop :=
  ∀ s : State, ∃ t, exec .addB s = .next t ∧ t.regA.toNat = (s.regA.toNat + s.regB.toNat) % 256 ∧
    t = { s with regA := t.regA }

/-- The effect of 42_data_transfer.md R69, and its frame: the byte at a16 reads as A, every other byte as before, and
nothing but memory changes. -/
def Obligations.StaCompletesAndFrames : Prop :=
  ∀ (a16 : Addr) (s : State), ∃ t, exec (.staA16 a16) s = .next t ∧
    t.memRead a16 = s.regA ∧ (∀ x : Addr, x ≠ a16 → t.memRead x = s.memRead x) ∧
    (s.mem.wf = true → t.mem.wf = true) ∧ t = { s with mem := t.mem }

/-- The frame of every instruction but STA (R64 to R68, R70; the table of R12): all of memory reads as before, the general
registers but the destination keep their values, and so do PC, SP, the flags, the front panel and the run-local registers;
`halted` changes only under HLT. -/
def Obligations.RegisterInstructionsFrame : Prop :=
  ∀ (i : Instr) (s t : State), (∀ a16, i ≠ .staA16 a16) → exec i s = .next t →
    (∀ x : Addr, t.memRead x = s.memRead x) ∧
    (∀ r : Reg, destination i ≠ some r → t.readReg r = s.readReg r) ∧
    t.pc = s.pc ∧ t.sp = s.sp ∧ t.flags = s.flags ∧ t.mem = s.mem ∧ t.mode = s.mode ∧ t.wa = s.wa ∧ t.buf = s.buf ∧
    t.active = s.active ∧ t.steps = s.steps ∧ t.input = s.input ∧ (i ≠ .hlt → t.halted = s.halted)

/-- R72: no instruction writes a flag, and none reads one: with other flags it does the same. -/
def Obligations.NoInstructionTouchesFlags : Prop :=
  ∀ (i : Instr) (s : State) (f : Flags), ∃ t, exec i s = .next t ∧ t.flags = s.flags ∧
    exec i { s with flags := f } = .next { t with flags := f }

/-- 60_exceptions.md R104, an inference the spec marks as its own: no instruction reads or writes SP, the flags, the
front-panel registers, `active` or `steps`. -/
def Obligations.NoInstructionTouchesPanelOrSp : Prop :=
  ∀ (i : Instr) (s : State) (sp : Addr) (f : Flags) (m : Mode) (wa : Addr) (buf : List Digit) (act : Bool) (n : Nat),
    ∃ t, exec i s = .next t ∧
      t.sp = s.sp ∧ t.flags = s.flags ∧ t.mode = s.mode ∧ t.wa = s.wa ∧ t.buf = s.buf ∧ t.active = s.active ∧
      t.steps = s.steps ∧
      exec i { s with sp := sp, flags := f, mode := m, wa := wa, buf := buf, active := act, steps := n } =
        .next { t with sp := sp, flags := f, mode := m, wa := wa, buf := buf, active := act, steps := n }

/-! ### Each instruction as a whole step, from its bytes in memory -/

/-- R64: HLT. That it counts as a step of the budget is the spec's decision D5. -/
def Obligations.HltStep : Prop :=
  ∀ s : State, s.Running → s.memRead s.pc = 0x76 →
    step s = .next { s with halted := true, pc := s.pc + 1, steps := s.steps + 1 }

/-- R66: MOV A,B. -/
def Obligations.MovABStep : Prop :=
  ∀ s : State, s.Running → s.memRead s.pc = 0x78 →
    step s = .next { s with regA := s.regB, pc := s.pc + 1, steps := s.steps + 1 }

/-- R67: MVI A,d8. -/
def Obligations.MviAStep : Prop :=
  ∀ s : State, s.Running → s.memRead s.pc = 0x3E →
    step s = .next { s with regA := s.memRead (s.pc + 1), pc := s.pc + 2, steps := s.steps + 1 }

/-- R68: MVI B,d8. -/
def Obligations.MviBStep : Prop :=
  ∀ s : State, s.Running → s.memRead s.pc = 0x06 →
    step s = .next { s with regB := s.memRead (s.pc + 1), pc := s.pc + 2, steps := s.steps + 1 }

/-- R70: ADD B; the sum is modulo 256 and no flag changes. -/
def Obligations.AddBStep : Prop :=
  ∀ s : State, s.Running → s.memRead s.pc = 0x80 →
    ∃ t, step s = .next t ∧ t.regA.toNat = (s.regA.toNat + s.regB.toNat) % 256 ∧
      t = { s with regA := t.regA, pc := s.pc + 1, steps := s.steps + 1 }

/-- R69: STA a16. The address comes from the operand bytes as they were before the write, low byte first; that cell alone
changes, and it may lie in the STA's own bytes or right after them. -/
def Obligations.StaStep : Prop :=
  ∀ s : State, s.Running → s.memRead s.pc = 0x32 →
    ∃ t, step s = .next t ∧
      (∀ a : Addr, a = concatBytes (s.memRead (s.pc + 2)) (s.memRead (s.pc + 1)) →
        a.toNat = (s.memRead (s.pc + 2)).toNat * 256 + (s.memRead (s.pc + 1)).toNat ∧
        t.memRead a = s.regA ∧ ∀ x : Addr, x ≠ a → t.memRead x = s.memRead x) ∧
      t = { s with mem := t.mem, pc := s.pc + 3, steps := s.steps + 1 }

/-- 30_encoding.md R46: each of the 250 other bytes is a one-byte no-op, and the byte after it is fetched next. -/
def Obligations.UnassignedStep : Prop :=
  ((List.range 256).filter fun n => (Instr.unassigned (BitVec.ofNat 8 n)).wf).length = 250 ∧
  ∀ s : State, s.Running → (Instr.unassigned (s.memRead s.pc)).wf = true →
    step s = .next { s with pc := s.pc + 1, steps := s.steps + 1 }

/-! ### Memory and PC -/

/-- 20_memory.md R24: a written cell reads back, and no other cell (nor anything else) changes. -/
def Obligations.MemReadReturnsLastWrite : Prop :=
  ∀ (s : State) (a : Addr) (v : Byte),
    (s.memWrite a v).memRead a = v ∧ (∀ x : Addr, x ≠ a → (s.memWrite a v).memRead x = s.memRead x) ∧
    s.memWrite a v = { s with mem := (s.memWrite a v).mem }

/-- R17 and R23 with log entry 1: every array of 65536 bytes is exactly one memory in canonical form, so a statement about
every canonical memory is one about every `MEM_INIT`. -/
def Obligations.EveryArrayIsOneMemory : Prop :=
  ∀ f : Addr → Byte, ∃ m : Memory, (m.wf = true ∧ ∀ a, m.read a = f a) ∧
    ∀ m' : Memory, m'.wf = true → (∀ a, m'.read a = f a) → m' = m

/-- R17 and R26: a step changes a byte of memory only when it is an STA storing to it, or a Next or Previous in DataEntry
with a non-empty buffer depositing at the working address. So memory survives Reset, which is the spec's decision D15 (log
entry 7), and an Execute in DataEntry writes no pending digits, which is its decision D14 (log entry 5); that the byte
deposited is the low byte of the buffer's value is its decision D10 (log entry 6). -/
def Obligations.OnlyStaAndDepositsChangeMemory : Prop :=
  ∀ (s t : State) (x : Addr), step s = .next t → t.memRead x ≠ s.memRead x →
    (s.Running ∧ s.memRead s.pc = 0x32 ∧ x = concatBytes (s.memRead (s.pc + 2)) (s.memRead (s.pc + 1)) ∧
      t.memRead x = s.regA) ∨
    ((s.accepts .next ∨ s.accepts .previous) ∧ s.mode = .dataEntry ∧ s.buf ≠ [] ∧ x = s.wa ∧ t.memRead x = bufByte s.buf)

/-- R37, R69 and R117 (the spec's decision D9, no prefetch, log entry 16): an STA whose target is the byte after it plants
the next opcode, whatever A is. The byte at the new PC is A, and the next step is the effect of what A and the bytes after
it decode to, on the state with PC moved past it and the step counted (that every step counts, HLT included, is decision
D5, log entry 13). With A = 0x76 it is an HLT. -/
def Obligations.StoredOpcodeIsExecutedNext : Prop :=
  ∀ s : State, s.Running → s.steps + 1 < 1000 → s.memRead s.pc = 0x32 →
    concatBytes (s.memRead (s.pc + 2)) (s.memRead (s.pc + 1)) = s.pc + 3 →
    ∃ t i rest, step s = .next t ∧ t.pc = s.pc + 3 ∧ t.halted = false ∧ t.memRead t.pc = s.regA ∧
      decode [s.regA, s.memRead (s.pc + 4), s.memRead (s.pc + 5)] = .ok (i, rest) ∧
      step t = exec i { t with pc := t.pc + BitVec.ofNat 16 i.length, steps := t.steps + 1 } ∧
      (s.regA = 0x76 → ∃ u, step t = .next u ∧ u.halted = true ∧ u.pc = s.pc + 4)

/-- R62, an inference the spec marks as its own: within one run no address is fetched twice, and (R118) a run fetches at
most 3000 bytes. -/
def Obligations.NoAddressFetchedTwice : Prop :=
  ∀ (n : Nat) (s : State), (fetchTrace n s).Nodup ∧ (fetchTrace n s).length ≤ 3000

/-- 10_state.md R14: PC moves only by the bytes fetched, by the run start, and by reset. -/
def Obligations.PcMovesOnlyByFetchStartAndReset : Prop :=
  ∀ s t : State, step s = .next t →
    (s.Running →
      t.pc = s.pc + (if s.memRead s.pc = 0x3E ∨ s.memRead s.pc = 0x06 then 2 else if s.memRead s.pc = 0x32 then 3 else 1)) ∧
    (s.accepts .execute → s.mode = .addressEntry → t.pc = bufAddress s.buf) ∧
    (s.accepts .execute → s.mode = .dataEntry → t.pc = s.wa) ∧
    (s.accepts .reset → t.pc = 0x0000) ∧
    (¬s.Running → ¬(s.accepts .execute ∧ s.mode ≠ .idle) → ¬s.accepts .reset → t.pc = s.pc)

/-- R71: arithmetic is unsigned and wraps modulo the width of its destination, with nothing recorded. That Next and
Previous in DataEntry move the working address also when the buffer is empty is the spec's decision D22 (log entry 10). -/
def Obligations.ArithmeticWrapsModuloItsWidth : Prop :=
  (∀ s : State, ∃ t, exec .addB s = .next t ∧ t.regA.toNat = (s.regA.toNat + s.regB.toNat) % 256 ∧
    t = { s with regA := t.regA }) ∧
  (∀ s : State, s.fetchByte.2.pc.toNat = (s.pc.toNat + 1) % 65536) ∧
  (∀ s : State, s.panelDepositNext.wa.toNat = (s.wa.toNat + 1) % 65536) ∧
  (∀ s : State, s.panelDepositPrevious.wa.toNat = (s.wa.toNat + 65535) % 65536)

/-! ### Registers, SP and flags over every step -/

/-- R12, an inference the spec marks as its own: A is written only by MOV A,B, MVI A,d8, ADD B and reset, B only by
MVI B,d8 and reset, and C, D, E, H and L only by reset. -/
def Obligations.GeneralRegisterWriters : Prop :=
  ∀ s t : State, step s = .next t → ¬s.accepts .reset →
    (t.regA ≠ s.regA → s.Running ∧ (s.memRead s.pc = 0x78 ∨ s.memRead s.pc = 0x3E ∨ s.memRead s.pc = 0x80)) ∧
    (t.regB ≠ s.regB → s.Running ∧ s.memRead s.pc = 0x06) ∧
    t.regC = s.regC ∧ t.regD = s.regD ∧ t.regE = s.regE ∧ t.regH = s.regH ∧ t.regL = s.regL

/-- R13: the general registers are 0x00 after reset, and a run start keeps them. -/
def Obligations.GeneralRegistersAtResetAndRunStart : Prop :=
  (∀ s : State, s.accepts .reset → ∃ t, step s = .next t ∧ ∀ r : Reg, t.readReg r = 0x00) ∧
  (∀ s : State, s.accepts .execute → ∃ t, step s = .next t ∧ ∀ r : Reg, t.readReg r = s.readReg r)

/-- R15: only reset touches SP, which it sets to 0xFFFF. Any other step keeps it, and does the same whatever SP is. -/
def Obligations.OnlyResetTouchesSp : Prop :=
  (∀ (s : State) (v : Addr), s.active = true ∨ s.input ≠ [] → ¬s.accepts .reset →
    ∃ t, step s = .next t ∧ t.sp = s.sp ∧ step { s with sp := v } = .next { t with sp := v }) ∧
  (∀ s : State, s.accepts .reset → ∃ t, step s = .next t ∧ t.sp = 0xFFFF)

/-- R16: only reset writes the flags, and makes them false. Any other step keeps them, and does the same whatever they are. -/
def Obligations.OnlyResetTouchesFlags : Prop :=
  (∀ (s : State) (f : Flags), s.active = true ∨ s.input ≠ [] → ¬s.accepts .reset →
    ∃ t, step s = .next t ∧ t.flags = s.flags ∧ step { s with flags := f } = .next { t with flags := f }) ∧
  (∀ s : State, s.accepts .reset → ∃ t, step s = .next t ∧ t.flags = ⟨false, false, false, false, false⟩)

/-- R73's convention for opcodes this hardware does not have, as `conventionAddFlags` writes it down. The reading of
overflow at bit 7 and bit 3 as a carry out is general knowledge (log entry 15); no instruction applies any of it. -/
def Obligations.FlagConventionOfAnAddition : Prop :=
  ∀ x y : Byte,
    ((conventionAddFlags x y).z = true ↔ (x.toNat + y.toNat) % 256 = 0) ∧
    ((conventionAddFlags x y).s = true ↔ 128 ≤ (x.toNat + y.toNat) % 256) ∧
    ((conventionAddFlags x y).p = true ↔
      (((List.range 8).map fun k => (x.toNat + y.toNat) / 2 ^ k % 2).sum) % 2 = 0) ∧
    ((conventionAddFlags x y).cy = true ↔ 256 ≤ x.toNat + y.toNat) ∧
    ((conventionAddFlags x y).ac = true ↔ 16 ≤ x.toNat % 16 + y.toNat % 16)

/-! ### The run -/

/-- R52: at the run start PC, `active`, `halted` and `steps` are set, and the registers, SP, the flags, memory, the mode and
the working address keep their values. The step is the Execute event's: it also consumes the event, and that it clears the
buffer, keeps the working address, and in DataEntry keeps memory with digits pending is the spec's decision D14 (log
entry 5); that the mode stays until the run ends is log entry 12. -/
def Obligations.RunStartSetsOnlyTheRunRegisters : Prop :=
  ∀ s : State, s.accepts .execute → s.mode ≠ .idle →
    ∃ t, step s = .next t ∧ t.pc = (if s.mode = .addressEntry then bufAddress s.buf else s.wa) ∧
      t.active = true ∧ t.halted = false ∧ t.steps = 0 ∧
      (∀ r : Reg, t.readReg r = s.readReg r) ∧ t.sp = s.sp ∧ t.flags = s.flags ∧ t.mem = s.mem ∧
      t.mode = s.mode ∧ t.wa = s.wa ∧ t.buf = [] ∧ t.input = s.input.tail

/-- R57: HLT sets `halted`, and the step after it ends the run without fetching a byte. That `halted` and `steps` are kept
past the run's end is the spec's decision D7 (log entry 13). -/
def Obligations.HaltEndsTheRun : Prop :=
  ∀ s : State, s.Running → s.memRead s.pc = 0x76 →
    ∃ t, step s = .next t ∧ t.halted = true ∧ t.pc = s.pc + 1 ∧
      step t = .next { t with active := false, mode := .idle }

/-- R58: a run whose `steps` reaches 1000 unhalted ends there, with nothing else changed; 1001 no-op bytes stop it after
exactly 1000 steps, PC on the first byte not fetched. -/
def Obligations.BudgetExhaustionEndsTheRun : Prop :=
  (∀ s : State, s.active = true → s.halted = false → s.steps = 1000 →
    step s = .next { s with active := false, mode := .idle }) ∧
  (∀ s : State, s.active = true → s.halted = false → s.steps = 0 →
    (∀ k : Nat, k ≤ 1000 → (Instr.unassigned (s.memRead (s.pc + BitVec.ofNat 16 k))).wf = true) →
    runSteps 1000 s = .next { s with pc := s.pc + 1000, steps := 1000 } ∧
    runSteps 1001 s = .next { s with pc := s.pc + 1000, steps := 1000, active := false, mode := .idle })

/-- R60 with the spec's decision D7 (`halted` and `steps` keep their values): the run end, and the result on `reg_A`. -/
def Obligations.RunEndLeavesResultInA : Prop :=
  ∀ s : State, s.active = true → (s.halted = true ∨ s.steps = 1000) →
    ∃ t, step s = .next t ∧ t = { s with active := false, mode := .idle } ∧
      t.outputs.regA = s.regA ∧ t.outputs.runHalted = s.halted ∧ t.outputs.evReady = true

/-- R59 (the spec's decision D24): an HLT that is the 1000th step ends the run once, reported as a halt. -/
def Obligations.HaltOnTheLastBudgetStep : Prop :=
  ∀ s : State, s.active = true → s.halted = false → s.steps = 999 → s.memRead s.pc = 0x76 →
    runSteps 2 s =
      .next { s with pc := s.pc + 1, halted := true, steps := 1000, active := false, mode := .idle }

/-- R61: a run ends after at most 1000 steps, and cannot fault on the way. That every step adds one to `steps`, HLT
included, is the spec's decision D5, and that the run's end keeps `steps` its decision D7 (log entry 13); that a run with
`steps` above 1000 ends at once is the model's reading (log entry 9). -/
def Obligations.EveryRunEndsWithinTheBudget : Prop :=
  ∀ s : State, s.active = true → ∃ k, k ≤ 1000 - s.steps ∧
    (∀ j, j ≤ k → ∃ u, runSteps j s = .next u ∧ u.active = true ∧ u.steps = s.steps + j) ∧
    ∃ t, runSteps (k + 1) s = .next t ∧ t.active = false ∧ t.steps = s.steps + k

/-- R51: a run is started only by an accepted Execute, and the block's steps from there to the run's end are the
pseudocode's run, with A the result. It rests on decisions of the spec: the division of the run into steps is D1 (log
entry 12), the buffer cleared and digits pending in DataEntry dropped unwritten is D14 (log entry 5), every step counted
is D5 and `steps` kept past the run's end is D7 (log entry 13). -/
def Obligations.ExecuteRunsThePseudocode : Prop :=
  (∀ s t : State, step s = .next t → s.active = false → t.active = true → s.accepts .execute ∧ s.mode ≠ .idle) ∧
  (∀ (s : State) (p : PortEvent) (rest : List PortEvent), s.Offered p rest → p.event = .execute → s.mode ≠ .idle →
    ∃ t k, k ≤ 1000 ∧
      runProgram (if s.mode = .addressEntry then bufAddress s.buf else s.wa) { s with buf := [], input := rest } = .next t ∧
      runSteps (k + 2) s = .next t ∧ t.steps = k ∧ t.active = false ∧ t.outputs.regA = t.regA)

/-! ### The front panel -/

/-- 48_front_panel.md R74 (the port's codes are the spec's decision D2). -/
def Obligations.PortCodesNameTheEvents : Prop :=
  ∀ d : Digit,
    PortEvent.event ⟨0b000, d⟩ = .key d ∧ PortEvent.event ⟨0b001, d⟩ = .reset ∧
    PortEvent.event ⟨0b010, d⟩ = .examineMemory ∧ PortEvent.event ⟨0b011, d⟩ = .next ∧
    PortEvent.event ⟨0b100, d⟩ = .previous ∧ PortEvent.event ⟨0b101, d⟩ = .go ∧
    PortEvent.event ⟨0b110, d⟩ = .execute ∧ PortEvent.event ⟨0b111, d⟩ = .reserved

/-- R81, R87 and R92: a key in Idle, Previous outside DataEntry and Execute in Idle are consumed and change nothing. -/
def Obligations.IgnoredEventsChangeNothing : Prop :=
  ∀ (s : State) (p : PortEvent) (rest : List PortEvent), s.Offered p rest →
    (p.code = 0b000 ∧ s.mode = .idle) ∨ (p.code = 0b100 ∧ s.mode ≠ .dataEntry) ∨ (p.code = 0b110 ∧ s.mode = .idle) →
    step s = .next { s with input := rest }

/-- R88 and R93: Next in Idle (the spec's decision D12) and the reserved code (D2) are consumed and change nothing. -/
def Obligations.EventsIgnoredByDecision : Prop :=
  ∀ (s : State) (p : PortEvent) (rest : List PortEvent), s.Offered p rest →
    (p.code = 0b011 ∧ s.mode = .idle) ∨ p.code = 0b111 →
    step s = .next { s with input := rest }

/-- R77 and R82: outside Idle a key's digit is appended to the buffer, of which the last 4 digits are kept. -/
def Obligations.KeyAppendsKeepingLastFour : Prop :=
  ∀ (s : State) (p : PortEvent) (rest : List PortEvent), s.Offered p rest → p.code = 0b000 → s.mode ≠ .idle →
    ∃ t, step s = .next t ∧ t.buf <:+ s.buf ++ [p.digit] ∧ t.buf.length = min 4 (s.buf.length + 1) ∧
      t = { s with input := rest, buf := t.buf }

/-- R83 and R89: ExamineMemory and Go clear the buffer and enter AddressEntry in any mode; that the working address is
kept is the spec's decision D13. -/
def Obligations.ExamineAndGoEnterAddressEntry : Prop :=
  ∀ (s : State) (p : PortEvent) (rest : List PortEvent), s.Offered p rest → p.code = 0b010 ∨ p.code = 0b101 →
    step s = .next { s with input := rest, buf := [], mode := .addressEntry }

/-- R84: Next in AddressEntry commits the buffer's value, or 0 for an empty buffer, as the working address. -/
def Obligations.NextCommitsWorkingAddress : Prop :=
  ∀ (s : State) (p : PortEvent) (rest : List PortEvent), s.Offered p rest → p.code = 0b011 → s.mode = .addressEntry →
    s.buf.length ≤ 4 →
    ∃ t, step s = .next t ∧ t.wa.toNat = (if s.buf = [] then 0 else bufValue s.buf) ∧
      t = { s with input := rest, wa := t.wa, buf := [], mode := .dataEntry }

/-- R85 and R86: Next and Previous in DataEntry. They rest on the spec's decisions D22 (the address moves also when the
buffer is empty) and D10 (the low byte of the value is stored). -/
def Obligations.DepositStoresAndMovesAddress : Prop :=
  ∀ (s : State) (p : PortEvent) (rest : List PortEvent), s.Offered p rest → p.code = 0b011 ∨ p.code = 0b100 →
    s.mode = .dataEntry →
    ∃ t, step s = .next t ∧
      (p.code = 0b011 → t.wa.toNat = (s.wa.toNat + 1) % 65536) ∧
      (p.code = 0b100 → t.wa.toNat = (s.wa.toNat + 65535) % 65536) ∧
      (s.buf ≠ [] → (t.memRead s.wa).toNat = bufValue s.buf % 256) ∧
      (∀ x : Addr, s.buf = [] ∨ x ≠ s.wa → t.memRead x = s.memRead x) ∧
      t = { s with input := rest, mem := t.mem, wa := t.wa, buf := [] }

/-- R78 (the digit order is the spec's decision D21): the buffer's value is its digits read in base 16, the oldest the most
significant, and fits 16 bits. -/
def Obligations.BufferValueIsHexadecimal : Prop :=
  ∀ ds : List Digit, ds ≠ [] → ds.length ≤ 4 →
    bufValue ds = Nat.ofDigits 16 (ds.reverse.map BitVec.toNat) ∧ bufValue ds ≤ 0xFFFF

/-- R79 (the spec's decision D10): the byte a deposit stores is the last two digits, or the single digit. -/
def Obligations.DepositByteIsLastTwoDigits : Prop :=
  (∀ (ds : List Digit) (x y : Digit), bufByte (ds ++ [x, y]) = x ++ y) ∧ (∀ y : Digit, bufByte [y] = 0#4 ++ y)

/-- R90 and R91: Execute. That the buffer is cleared, the working address kept and digits pending in DataEntry dropped
unwritten is the spec's decision D14. -/
def Obligations.ExecuteStartsTheRun : Prop :=
  ∀ (s : State) (p : PortEvent) (rest : List PortEvent), s.Offered p rest → p.code = 0b110 → s.mode ≠ .idle →
    step s = .next { s with
      input := rest
      buf := []
      pc := if s.mode = .dataEntry then s.wa else if s.buf = [] then 0x0000 else BitVec.ofNat 16 (bufValue s.buf)
      active := true
      halted := false
      steps := 0 }

/-- R80, R111 and R112: the Reset event, in any mode. That memory is kept and the working address becomes 0x0000 is the
spec's decision D15, that `halted` and `steps` become 0 its decision D4. The state is the one of power-on (R113). -/
def Obligations.ResetEventAssignsResetValues : Prop :=
  ∀ (s : State) (p : PortEvent) (rest : List PortEvent), s.Offered p rest → p.code = 0b001 →
    step s = .next
      { regA := 0x00, regB := 0x00, regC := 0x00, regD := 0x00, regE := 0x00, regH := 0x00, regL := 0x00,
        pc := 0x0000, sp := 0xFFFF, flags := ⟨false, false, false, false, false⟩, mem := s.mem,
        mode := .idle, wa := 0x0000, buf := [], active := false, halted := false, steps := 0, input := rest } ∧
    step s = .next { State.powerOn s.mem with input := rest }

/-- R95, an inference the spec marks as its own: DataEntry is entered only by Next in AddressEntry. -/
def Obligations.DataEntryEnteredOnlyByNext : Prop :=
  ∀ s t : State, step s = .next t → s.mode ≠ .dataEntry → t.mode = .dataEntry →
    s.accepts .next ∧ s.mode = .addressEntry ∧ t.wa = bufAddress s.buf

/-- R75 (the spec's decision D3), R100: during a run no event is consumed, and what the host presents has no influence;
with no run in progress exactly the event on the port is consumed. -/
def Obligations.EventsAreHeldDuringARun : Prop :=
  (∀ (s : State) (q : List PortEvent), s.active = true →
    ∃ t, step s = .next t ∧ t.input = s.input ∧ step { s with input := q } = .next { t with input := q }) ∧
  (∀ (s : State) (p : PortEvent) (rest : List PortEvent), s.Offered p rest → ∃ t, step s = .next t ∧ t.input = rest)

/-- R74 and R96 (the outputs are the spec's decisions D2 and D20; that `run_halted` and `run_steps` are shown after a run
too is D7): all 23 signals. The counts fit their signals, the buffer's digits stand right-aligned with zeros above, the mode
has its code, `mem_at_wa` is the byte at the working address, and every other signal is the register or flag it names. -/
def Obligations.OutputsShowTheState : Prop :=
  ∀ s : State, s.buf.length ≤ 4 → s.steps ≤ 1000 →
    s.outputs.evReady = !s.active ∧ s.outputs.busy = s.active ∧
    s.outputs.mode = (match s.mode with | .idle => 0b00 | .addressEntry => 0b01 | .dataEntry => 0b10) ∧
    s.outputs.wa = s.wa ∧ s.outputs.bufLen.toNat = s.buf.length ∧
    (∀ k : Nat, k < 4 → s.outputs.bufDigits.extractLsb' (4 * k) 4 = s.buf.reverse.getD k 0x0) ∧
    s.outputs.memAtWa = s.memRead s.wa ∧
    s.outputs.regA = s.regA ∧ s.outputs.regB = s.regB ∧ s.outputs.regC = s.regC ∧ s.outputs.regD = s.regD ∧
    s.outputs.regE = s.regE ∧ s.outputs.regH = s.regH ∧ s.outputs.regL = s.regL ∧
    s.outputs.regPC = s.pc ∧ s.outputs.regSP = s.sp ∧
    s.outputs.flagZ = s.flags.z ∧ s.outputs.flagS = s.flags.s ∧ s.outputs.flagP = s.flags.p ∧
    s.outputs.flagCY = s.flags.cy ∧ s.outputs.flagAC = s.flags.ac ∧
    s.outputs.runHalted = s.halted ∧ s.outputs.runSteps.toNat = s.steps

/-! ### Invariants -/

/-- The model's invariant holds at power-on with any canonical memory, so at `State.reset` (R20, R21, R113). -/
def Obligations.PowerOnSatisfiesInv : Prop :=
  (∀ m : Memory, m.wf = true → (State.powerOn m).Inv ∧ (State.powerOn m).UnusedAtReset) ∧
  State.reset.Inv ∧ State.reset.UnusedAtReset

/-- The headline: from every state with the invariant, a step leads to one with it. Memory keeps its canonical form, the
buffer its 4 digits (R20), `steps` its bound (R21, R53), a run its input mode with an empty buffer (R90, R91). -/
def Obligations.StepKeepsInv : Prop :=
  ∀ s t : State, s.Inv → step s = .next t → t.Inv

/-- Every state the block can be in, whatever memory it powered on with and whatever the host presents, has the invariant;
the registers no instruction uses and the flags hold their reset values (R12, R15, R16); and it has a next state. The last,
for a state in which no event is presented, is the model's choice (log entry 2). -/
def Obligations.ReachableStatesAreGood : Prop :=
  ∀ s : State, Reachable s → s.Inv ∧ s.UnusedAtReset ∧ ∃ t, step s = .next t
end

