-- ==== Sys2Proof/Laws/Memory.lean ====
section
/-! SUPPORT. The memory list: what a write does to every cell, that every memory operation keeps the canonical form, and
that the canonical form is unique. -/

namespace Sys2Proof.Machine

/-! ### Reading after `erase` and `insert` -/

theorem Memory.read_erase (m : Memory) (k : Nat) (x : Addr) :
    Memory.read (Memory.erase m k) x = if k = x.toNat then Config.unlistedByte else Memory.read m x := by
  induction m with
  | nil => simp [Memory.erase, Memory.read]
  | cons c rest ih =>
    obtain ⟨k', v⟩ := c
    simp only [Memory.erase]
    split
    · rename_i h; subst h; rw [ih]; simp only [Memory.read]; split <;> rfl
    · rename_i h
      simp only [Memory.read, ih]
      by_cases hx : k' = x.toNat
      · have : k ≠ x.toNat := fun e => h (hx.trans e.symm)
        simp [hx, this]
      · simp [hx]

theorem Memory.read_insert (m : Memory) (k : Nat) (v : Byte) (x : Addr) (h : ∀ c ∈ m, c.1 ≠ k) :
    Memory.read (Memory.insert m k v) x = if k = x.toNat then v else Memory.read m x := by
  induction m with
  | nil => simp [Memory.insert, Memory.read]
  | cons c rest ih =>
    obtain ⟨k', v'⟩ := c
    have hk : k' ≠ k := h (k', v') (by simp)
    have ih' := ih fun c hc => h c (by simp [hc])
    simp only [Memory.insert]
    split
    · simp only [Memory.read]
    · simp only [Memory.read, ih']
      by_cases hx : k' = x.toNat
      · have : k ≠ x.toNat := fun e => hk (hx.trans e.symm)
        simp [hx, this]
      · simp [hx]

theorem Memory.not_mem_erase (m : Memory) (k : Nat) : ∀ c ∈ Memory.erase m k, c.1 ≠ k := by
  induction m with
  | nil => simp [Memory.erase]
  | cons c rest ih =>
    obtain ⟨k', v⟩ := c
    simp only [Memory.erase]
    split
    · exact ih
    · rename_i h
      intro c hc
      rcases List.mem_cons.mp hc with rfl | hc
      · exact h
      · exact ih c hc

/-- What a write does: the written cell reads as written, and every other cell as before. -/
theorem Memory.read_write (m : Memory) (a : Addr) (v : Byte) (x : Addr) :
    (m.write a v).read x = if x = a then v else m.read x := by
  have hx : (a.toNat = x.toNat) ↔ x = a := by rw [eq_comm, BitVec.toNat_inj]
  unfold Memory.write
  split
  · rename_i h; rw [Memory.read_erase]; simp [hx, h]
  · rw [Memory.read_insert _ _ _ _ (Memory.not_mem_erase m _), Memory.read_erase]
    simp only [hx]
    split <;> rfl

/-! ### The canonical form -/

theorem Memory.wfFrom_cons {lo k : Nat} {v : Byte} {rest : Memory} :
    Memory.wfFrom lo ((k, v) :: rest) = true ↔
      lo ≤ k ∧ k < 65536 ∧ v ≠ Config.unlistedByte ∧ Memory.wfFrom (k + 1) rest = true := by
  simp only [Memory.wfFrom, Bool.and_eq_true]
  rw [decide_eq_true_eq, decide_eq_true_eq, decide_eq_true_eq, and_assoc, and_assoc]
  rfl

theorem Memory.wfFrom_mono {lo lo' : Nat} {m : Memory} (h : lo' ≤ lo) (hm : Memory.wfFrom lo m = true) :
    Memory.wfFrom lo' m = true := by
  cases m with
  | nil => rfl
  | cons c rest =>
    obtain ⟨k, v⟩ := c
    simp only [Memory.wfFrom, Bool.and_eq_true, decide_eq_true_eq] at hm ⊢
    exact ⟨⟨⟨by omega, hm.1.1.2⟩, hm.1.2⟩, hm.2⟩

theorem Memory.wfFrom_erase {lo : Nat} {m : Memory} (k : Nat) (hm : Memory.wfFrom lo m = true) :
    Memory.wfFrom lo (Memory.erase m k) = true := by
  induction m generalizing lo with
  | nil => rfl
  | cons c rest ih =>
    obtain ⟨k', v⟩ := c
    simp only [Memory.wfFrom, Bool.and_eq_true, decide_eq_true_eq] at hm
    simp only [Memory.erase]
    split
    · exact Memory.wfFrom_mono (by omega) (ih hm.2)
    · simp only [Memory.wfFrom, Bool.and_eq_true, decide_eq_true_eq]
      exact ⟨hm.1, ih hm.2⟩

theorem Memory.wfFrom_insert {lo : Nat} {m : Memory} {k : Nat} {v : Byte} (hm : Memory.wfFrom lo m = true)
    (hlo : lo ≤ k) (hk : k < Config.memSize) (hv : v ≠ Config.unlistedByte) (hne : ∀ c ∈ m, c.1 ≠ k) :
    Memory.wfFrom lo (Memory.insert m k v) = true := by
  induction m generalizing lo with
  | nil => simp [Memory.insert, Memory.wfFrom, hlo, hk, hv]
  | cons c rest ih =>
    obtain ⟨k', v'⟩ := c
    have hk' : k' ≠ k := hne (k', v') (by simp)
    simp only [Memory.wfFrom, Bool.and_eq_true, decide_eq_true_eq] at hm
    simp only [Memory.insert]
    split
    · simp only [Memory.wfFrom, Bool.and_eq_true, decide_eq_true_eq]
      exact ⟨⟨⟨hlo, hk⟩, hv⟩, ⟨⟨by omega, hm.1.1.2⟩, hm.1.2⟩, hm.2⟩
    · simp only [Memory.wfFrom, Bool.and_eq_true, decide_eq_true_eq]
      exact ⟨hm.1, ih hm.2 (by omega) fun c hc => hne c (by simp [hc])⟩

/-- A write keeps the canonical form. -/
theorem Memory.wf_write {m : Memory} (a : Addr) (v : Byte) (hm : m.wf = true) : (m.write a v).wf = true := by
  unfold Memory.write
  split
  · exact Memory.wfFrom_erase _ hm
  · rename_i h
    exact Memory.wfFrom_insert (Memory.wfFrom_erase _ hm) (Nat.zero_le _) (by simpa [Config.memSize] using a.isLt) h
      (Memory.not_mem_erase m _)

theorem Memory.wf_writeBytes {m : Memory} (a : Addr) (bs : List Byte) (hm : m.wf = true) :
    (m.writeBytes a bs).wf = true := by
  induction bs generalizing m a with
  | nil => exact hm
  | cons b bs ih => exact ih (a + 1) (Memory.wf_write a b hm)

/-- The memory that lists nothing has the canonical form. -/
theorem Memory.wf_nil : Memory.wf [] = true := rfl

end Sys2Proof.Machine
end

