-- ==== Sys2Proof/Laws/State.lean ====
section
/-! SUPPORT. One lemma per field per named update of the state, true by rfl, so that no proof unfolds a record update. -/

namespace Sys2Proof.Machine

/-! ### `memWrite` -/

@[simp] theorem State.memWrite_regA (s : State) (a : Addr) (v : Byte) : (s.memWrite a v).regA = s.regA := rfl
@[simp] theorem State.memWrite_regB (s : State) (a : Addr) (v : Byte) : (s.memWrite a v).regB = s.regB := rfl
@[simp] theorem State.memWrite_regC (s : State) (a : Addr) (v : Byte) : (s.memWrite a v).regC = s.regC := rfl
@[simp] theorem State.memWrite_regD (s : State) (a : Addr) (v : Byte) : (s.memWrite a v).regD = s.regD := rfl
@[simp] theorem State.memWrite_regE (s : State) (a : Addr) (v : Byte) : (s.memWrite a v).regE = s.regE := rfl
@[simp] theorem State.memWrite_regH (s : State) (a : Addr) (v : Byte) : (s.memWrite a v).regH = s.regH := rfl
@[simp] theorem State.memWrite_regL (s : State) (a : Addr) (v : Byte) : (s.memWrite a v).regL = s.regL := rfl
@[simp] theorem State.memWrite_pc (s : State) (a : Addr) (v : Byte) : (s.memWrite a v).pc = s.pc := rfl
@[simp] theorem State.memWrite_sp (s : State) (a : Addr) (v : Byte) : (s.memWrite a v).sp = s.sp := rfl
@[simp] theorem State.memWrite_flags (s : State) (a : Addr) (v : Byte) : (s.memWrite a v).flags = s.flags := rfl
@[simp] theorem State.memWrite_mem (s : State) (a : Addr) (v : Byte) : (s.memWrite a v).mem = s.mem.write a v := rfl
@[simp] theorem State.memWrite_mode (s : State) (a : Addr) (v : Byte) : (s.memWrite a v).mode = s.mode := rfl
@[simp] theorem State.memWrite_wa (s : State) (a : Addr) (v : Byte) : (s.memWrite a v).wa = s.wa := rfl
@[simp] theorem State.memWrite_buf (s : State) (a : Addr) (v : Byte) : (s.memWrite a v).buf = s.buf := rfl
@[simp] theorem State.memWrite_active (s : State) (a : Addr) (v : Byte) : (s.memWrite a v).active = s.active := rfl
@[simp] theorem State.memWrite_halted (s : State) (a : Addr) (v : Byte) : (s.memWrite a v).halted = s.halted := rfl
@[simp] theorem State.memWrite_steps (s : State) (a : Addr) (v : Byte) : (s.memWrite a v).steps = s.steps := rfl
@[simp] theorem State.memWrite_input (s : State) (a : Addr) (v : Byte) : (s.memWrite a v).input = s.input := rfl

/-! ### `advancePc` -/

@[simp] theorem State.advancePc_regA (s : State) : (s.advancePc).regA = s.regA := rfl
@[simp] theorem State.advancePc_regB (s : State) : (s.advancePc).regB = s.regB := rfl
@[simp] theorem State.advancePc_regC (s : State) : (s.advancePc).regC = s.regC := rfl
@[simp] theorem State.advancePc_regD (s : State) : (s.advancePc).regD = s.regD := rfl
@[simp] theorem State.advancePc_regE (s : State) : (s.advancePc).regE = s.regE := rfl
@[simp] theorem State.advancePc_regH (s : State) : (s.advancePc).regH = s.regH := rfl
@[simp] theorem State.advancePc_regL (s : State) : (s.advancePc).regL = s.regL := rfl
@[simp] theorem State.advancePc_pc (s : State) : (s.advancePc).pc = s.pc + 1 := rfl
@[simp] theorem State.advancePc_sp (s : State) : (s.advancePc).sp = s.sp := rfl
@[simp] theorem State.advancePc_flags (s : State) : (s.advancePc).flags = s.flags := rfl
@[simp] theorem State.advancePc_mem (s : State) : (s.advancePc).mem = s.mem := rfl
@[simp] theorem State.advancePc_mode (s : State) : (s.advancePc).mode = s.mode := rfl
@[simp] theorem State.advancePc_wa (s : State) : (s.advancePc).wa = s.wa := rfl
@[simp] theorem State.advancePc_buf (s : State) : (s.advancePc).buf = s.buf := rfl
@[simp] theorem State.advancePc_active (s : State) : (s.advancePc).active = s.active := rfl
@[simp] theorem State.advancePc_halted (s : State) : (s.advancePc).halted = s.halted := rfl
@[simp] theorem State.advancePc_steps (s : State) : (s.advancePc).steps = s.steps := rfl
@[simp] theorem State.advancePc_input (s : State) : (s.advancePc).input = s.input := rfl

/-! ### `countStep` -/

@[simp] theorem State.countStep_regA (s : State) : (s.countStep).regA = s.regA := rfl
@[simp] theorem State.countStep_regB (s : State) : (s.countStep).regB = s.regB := rfl
@[simp] theorem State.countStep_regC (s : State) : (s.countStep).regC = s.regC := rfl
@[simp] theorem State.countStep_regD (s : State) : (s.countStep).regD = s.regD := rfl
@[simp] theorem State.countStep_regE (s : State) : (s.countStep).regE = s.regE := rfl
@[simp] theorem State.countStep_regH (s : State) : (s.countStep).regH = s.regH := rfl
@[simp] theorem State.countStep_regL (s : State) : (s.countStep).regL = s.regL := rfl
@[simp] theorem State.countStep_pc (s : State) : (s.countStep).pc = s.pc := rfl
@[simp] theorem State.countStep_sp (s : State) : (s.countStep).sp = s.sp := rfl
@[simp] theorem State.countStep_flags (s : State) : (s.countStep).flags = s.flags := rfl
@[simp] theorem State.countStep_mem (s : State) : (s.countStep).mem = s.mem := rfl
@[simp] theorem State.countStep_mode (s : State) : (s.countStep).mode = s.mode := rfl
@[simp] theorem State.countStep_wa (s : State) : (s.countStep).wa = s.wa := rfl
@[simp] theorem State.countStep_buf (s : State) : (s.countStep).buf = s.buf := rfl
@[simp] theorem State.countStep_active (s : State) : (s.countStep).active = s.active := rfl
@[simp] theorem State.countStep_halted (s : State) : (s.countStep).halted = s.halted := rfl
@[simp] theorem State.countStep_steps (s : State) : (s.countStep).steps = s.steps + 1 := rfl
@[simp] theorem State.countStep_input (s : State) : (s.countStep).input = s.input := rfl

/-! ### `setHalted` -/

@[simp] theorem State.setHalted_regA (s : State) : (s.setHalted).regA = s.regA := rfl
@[simp] theorem State.setHalted_regB (s : State) : (s.setHalted).regB = s.regB := rfl
@[simp] theorem State.setHalted_regC (s : State) : (s.setHalted).regC = s.regC := rfl
@[simp] theorem State.setHalted_regD (s : State) : (s.setHalted).regD = s.regD := rfl
@[simp] theorem State.setHalted_regE (s : State) : (s.setHalted).regE = s.regE := rfl
@[simp] theorem State.setHalted_regH (s : State) : (s.setHalted).regH = s.regH := rfl
@[simp] theorem State.setHalted_regL (s : State) : (s.setHalted).regL = s.regL := rfl
@[simp] theorem State.setHalted_pc (s : State) : (s.setHalted).pc = s.pc := rfl
@[simp] theorem State.setHalted_sp (s : State) : (s.setHalted).sp = s.sp := rfl
@[simp] theorem State.setHalted_flags (s : State) : (s.setHalted).flags = s.flags := rfl
@[simp] theorem State.setHalted_mem (s : State) : (s.setHalted).mem = s.mem := rfl
@[simp] theorem State.setHalted_mode (s : State) : (s.setHalted).mode = s.mode := rfl
@[simp] theorem State.setHalted_wa (s : State) : (s.setHalted).wa = s.wa := rfl
@[simp] theorem State.setHalted_buf (s : State) : (s.setHalted).buf = s.buf := rfl
@[simp] theorem State.setHalted_active (s : State) : (s.setHalted).active = s.active := rfl
@[simp] theorem State.setHalted_halted (s : State) : (s.setHalted).halted = true := rfl
@[simp] theorem State.setHalted_steps (s : State) : (s.setHalted).steps = s.steps := rfl
@[simp] theorem State.setHalted_input (s : State) : (s.setHalted).input = s.input := rfl

/-! ### `startRun` -/

@[simp] theorem State.startRun_regA (s : State) (start : Addr) : (s.startRun start).regA = s.regA := rfl
@[simp] theorem State.startRun_regB (s : State) (start : Addr) : (s.startRun start).regB = s.regB := rfl
@[simp] theorem State.startRun_regC (s : State) (start : Addr) : (s.startRun start).regC = s.regC := rfl
@[simp] theorem State.startRun_regD (s : State) (start : Addr) : (s.startRun start).regD = s.regD := rfl
@[simp] theorem State.startRun_regE (s : State) (start : Addr) : (s.startRun start).regE = s.regE := rfl
@[simp] theorem State.startRun_regH (s : State) (start : Addr) : (s.startRun start).regH = s.regH := rfl
@[simp] theorem State.startRun_regL (s : State) (start : Addr) : (s.startRun start).regL = s.regL := rfl
@[simp] theorem State.startRun_pc (s : State) (start : Addr) : (s.startRun start).pc = start := rfl
@[simp] theorem State.startRun_sp (s : State) (start : Addr) : (s.startRun start).sp = s.sp := rfl
@[simp] theorem State.startRun_flags (s : State) (start : Addr) : (s.startRun start).flags = s.flags := rfl
@[simp] theorem State.startRun_mem (s : State) (start : Addr) : (s.startRun start).mem = s.mem := rfl
@[simp] theorem State.startRun_mode (s : State) (start : Addr) : (s.startRun start).mode = s.mode := rfl
@[simp] theorem State.startRun_wa (s : State) (start : Addr) : (s.startRun start).wa = s.wa := rfl
@[simp] theorem State.startRun_buf (s : State) (start : Addr) : (s.startRun start).buf = s.buf := rfl
@[simp] theorem State.startRun_active (s : State) (start : Addr) : (s.startRun start).active = true := rfl
@[simp] theorem State.startRun_halted (s : State) (start : Addr) : (s.startRun start).halted = false := rfl
@[simp] theorem State.startRun_steps (s : State) (start : Addr) : (s.startRun start).steps = 0 := rfl
@[simp] theorem State.startRun_input (s : State) (start : Addr) : (s.startRun start).input = s.input := rfl

/-! ### `endRun` -/

@[simp] theorem State.endRun_regA (s : State) : (s.endRun).regA = s.regA := rfl
@[simp] theorem State.endRun_regB (s : State) : (s.endRun).regB = s.regB := rfl
@[simp] theorem State.endRun_regC (s : State) : (s.endRun).regC = s.regC := rfl
@[simp] theorem State.endRun_regD (s : State) : (s.endRun).regD = s.regD := rfl
@[simp] theorem State.endRun_regE (s : State) : (s.endRun).regE = s.regE := rfl
@[simp] theorem State.endRun_regH (s : State) : (s.endRun).regH = s.regH := rfl
@[simp] theorem State.endRun_regL (s : State) : (s.endRun).regL = s.regL := rfl
@[simp] theorem State.endRun_pc (s : State) : (s.endRun).pc = s.pc := rfl
@[simp] theorem State.endRun_sp (s : State) : (s.endRun).sp = s.sp := rfl
@[simp] theorem State.endRun_flags (s : State) : (s.endRun).flags = s.flags := rfl
@[simp] theorem State.endRun_mem (s : State) : (s.endRun).mem = s.mem := rfl
@[simp] theorem State.endRun_mode (s : State) : (s.endRun).mode = .idle := rfl
@[simp] theorem State.endRun_wa (s : State) : (s.endRun).wa = s.wa := rfl
@[simp] theorem State.endRun_buf (s : State) : (s.endRun).buf = s.buf := rfl
@[simp] theorem State.endRun_active (s : State) : (s.endRun).active = false := rfl
@[simp] theorem State.endRun_halted (s : State) : (s.endRun).halted = s.halted := rfl
@[simp] theorem State.endRun_steps (s : State) : (s.endRun).steps = s.steps := rfl
@[simp] theorem State.endRun_input (s : State) : (s.endRun).input = s.input := rfl

/-! ### `present` -/

@[simp] theorem State.present_regA (s : State) (e : PortEvent) : (s.present e).regA = s.regA := rfl
@[simp] theorem State.present_regB (s : State) (e : PortEvent) : (s.present e).regB = s.regB := rfl
@[simp] theorem State.present_regC (s : State) (e : PortEvent) : (s.present e).regC = s.regC := rfl
@[simp] theorem State.present_regD (s : State) (e : PortEvent) : (s.present e).regD = s.regD := rfl
@[simp] theorem State.present_regE (s : State) (e : PortEvent) : (s.present e).regE = s.regE := rfl
@[simp] theorem State.present_regH (s : State) (e : PortEvent) : (s.present e).regH = s.regH := rfl
@[simp] theorem State.present_regL (s : State) (e : PortEvent) : (s.present e).regL = s.regL := rfl
@[simp] theorem State.present_pc (s : State) (e : PortEvent) : (s.present e).pc = s.pc := rfl
@[simp] theorem State.present_sp (s : State) (e : PortEvent) : (s.present e).sp = s.sp := rfl
@[simp] theorem State.present_flags (s : State) (e : PortEvent) : (s.present e).flags = s.flags := rfl
@[simp] theorem State.present_mem (s : State) (e : PortEvent) : (s.present e).mem = s.mem := rfl
@[simp] theorem State.present_mode (s : State) (e : PortEvent) : (s.present e).mode = s.mode := rfl
@[simp] theorem State.present_wa (s : State) (e : PortEvent) : (s.present e).wa = s.wa := rfl
@[simp] theorem State.present_buf (s : State) (e : PortEvent) : (s.present e).buf = s.buf := rfl
@[simp] theorem State.present_active (s : State) (e : PortEvent) : (s.present e).active = s.active := rfl
@[simp] theorem State.present_halted (s : State) (e : PortEvent) : (s.present e).halted = s.halted := rfl
@[simp] theorem State.present_steps (s : State) (e : PortEvent) : (s.present e).steps = s.steps := rfl
@[simp] theorem State.present_input (s : State) (e : PortEvent) : (s.present e).input = s.input ++ [e] := rfl

/-! ### `writeReg` -/

@[simp] theorem State.writeReg_pc (s : State) (r : Reg) (v : Byte) : (s.writeReg r v).pc = s.pc := by cases r <;> rfl
@[simp] theorem State.writeReg_sp (s : State) (r : Reg) (v : Byte) : (s.writeReg r v).sp = s.sp := by cases r <;> rfl
@[simp] theorem State.writeReg_flags (s : State) (r : Reg) (v : Byte) : (s.writeReg r v).flags = s.flags := by cases r <;> rfl
@[simp] theorem State.writeReg_mem (s : State) (r : Reg) (v : Byte) : (s.writeReg r v).mem = s.mem := by cases r <;> rfl
@[simp] theorem State.writeReg_mode (s : State) (r : Reg) (v : Byte) : (s.writeReg r v).mode = s.mode := by cases r <;> rfl
@[simp] theorem State.writeReg_wa (s : State) (r : Reg) (v : Byte) : (s.writeReg r v).wa = s.wa := by cases r <;> rfl
@[simp] theorem State.writeReg_buf (s : State) (r : Reg) (v : Byte) : (s.writeReg r v).buf = s.buf := by cases r <;> rfl
@[simp] theorem State.writeReg_active (s : State) (r : Reg) (v : Byte) : (s.writeReg r v).active = s.active := by cases r <;> rfl
@[simp] theorem State.writeReg_halted (s : State) (r : Reg) (v : Byte) : (s.writeReg r v).halted = s.halted := by cases r <;> rfl
@[simp] theorem State.writeReg_steps (s : State) (r : Reg) (v : Byte) : (s.writeReg r v).steps = s.steps := by cases r <;> rfl
@[simp] theorem State.writeReg_input (s : State) (r : Reg) (v : Byte) : (s.writeReg r v).input = s.input := by cases r <;> rfl

/-- A register write is read back, and no other register is changed (no register is hardwired). -/
theorem State.readReg_writeReg (s : State) (r r' : Reg) (v : Byte) :
    (s.writeReg r v).readReg r' = if r' = r then v else s.readReg r' := by
  cases r <;> cases r' <;> rfl

/-! ### `panelDeposit` -/

@[simp] theorem State.panelDeposit_regA (s : State) : s.panelDeposit.regA = s.regA := by unfold State.panelDeposit; split <;> rfl
@[simp] theorem State.panelDeposit_regB (s : State) : s.panelDeposit.regB = s.regB := by unfold State.panelDeposit; split <;> rfl
@[simp] theorem State.panelDeposit_regC (s : State) : s.panelDeposit.regC = s.regC := by unfold State.panelDeposit; split <;> rfl
@[simp] theorem State.panelDeposit_regD (s : State) : s.panelDeposit.regD = s.regD := by unfold State.panelDeposit; split <;> rfl
@[simp] theorem State.panelDeposit_regE (s : State) : s.panelDeposit.regE = s.regE := by unfold State.panelDeposit; split <;> rfl
@[simp] theorem State.panelDeposit_regH (s : State) : s.panelDeposit.regH = s.regH := by unfold State.panelDeposit; split <;> rfl
@[simp] theorem State.panelDeposit_regL (s : State) : s.panelDeposit.regL = s.regL := by unfold State.panelDeposit; split <;> rfl
@[simp] theorem State.panelDeposit_pc (s : State) : s.panelDeposit.pc = s.pc := by unfold State.panelDeposit; split <;> rfl
@[simp] theorem State.panelDeposit_sp (s : State) : s.panelDeposit.sp = s.sp := by unfold State.panelDeposit; split <;> rfl
@[simp] theorem State.panelDeposit_flags (s : State) : s.panelDeposit.flags = s.flags := by unfold State.panelDeposit; split <;> rfl
@[simp] theorem State.panelDeposit_mode (s : State) : s.panelDeposit.mode = s.mode := by unfold State.panelDeposit; split <;> rfl
@[simp] theorem State.panelDeposit_wa (s : State) : s.panelDeposit.wa = s.wa := by unfold State.panelDeposit; split <;> rfl
@[simp] theorem State.panelDeposit_buf (s : State) : s.panelDeposit.buf = s.buf := by unfold State.panelDeposit; split <;> rfl
@[simp] theorem State.panelDeposit_active (s : State) : s.panelDeposit.active = s.active := by unfold State.panelDeposit; split <;> rfl
@[simp] theorem State.panelDeposit_halted (s : State) : s.panelDeposit.halted = s.halted := by unfold State.panelDeposit; split <;> rfl
@[simp] theorem State.panelDeposit_steps (s : State) : s.panelDeposit.steps = s.steps := by unfold State.panelDeposit; split <;> rfl
@[simp] theorem State.panelDeposit_input (s : State) : s.panelDeposit.input = s.input := by unfold State.panelDeposit; split <;> rfl

/-- The deposit writes the buffer's byte at the working address, or nothing when the buffer is empty. -/
theorem State.panelDeposit_mem (s : State) :
    s.panelDeposit.mem = if s.buf = [] then s.mem else s.mem.write s.wa (bufByte s.buf) := by
  unfold State.panelDeposit
  split
  · rename_i h; simp [h]
  · rename_i h; simp [h]

/-- The bytes after the deposit: only the one at the working address can differ, and only when the buffer is not empty. -/
theorem State.panelDeposit_memRead (s : State) (x : Addr) :
    s.panelDeposit.memRead x = if s.buf ≠ [] ∧ x = s.wa then bufByte s.buf else s.memRead x := by
  simp only [State.memRead, State.panelDeposit_mem]
  split
  · simp [*]
  · rw [Memory.read_write]; simp [*]

end Sys2Proof.Machine
end

