-- ==== Sys2Proof/Laws/Ops.lean ====
section
/-! SUPPORT. What each shared operation can do, said once: fetching an instruction, and the meanings' common shape. -/

namespace Sys2Proof.Machine

/-! ### Fetching -/

/-- The bytes at PC and the two addresses after it. -/
def State.bytesAtPc (s : State) : List Byte :=
  [s.memRead s.pc, s.memRead (s.pc + 1), s.memRead (s.pc + 1 + 1)]

/-- The fetched instruction is what the decoder reads from the bytes at PC. -/
theorem State.decode_bytesAtPc (s : State) :
    ∃ rest, decode s.bytesAtPc = .ok (s.fetchInstr.1, rest) := by
  unfold State.bytesAtPc State.fetchInstr decode
  simp only [State.fetchByte]
  cases entryOf (s.memRead s.pc) with
  | f1 i => exact ⟨_, rfl⟩
  | f2 f => exact ⟨_, rfl⟩
  | f3 f => exact ⟨_, rfl⟩

/-- A byte that is none of the six selects the fallback entry. -/
theorem entryOf_unassigned {op : Byte} (h : assignedOpcodes.contains op = false) : entryOf op = .f1 (.unassigned op) := by
  simp [assignedOpcodes] at h
  obtain ⟨h1, h2, h3, h4, h5, h6⟩ := h
  simp [entryOf, h1, h2, h3, h4, h5, h6]

/-- The six assigned bytes, or a byte that is none of them. -/
theorem opcode_cases (op : Byte) :
    op = 0x76#8 ∨ op = 0x78#8 ∨ op = 0x3E#8 ∨ op = 0x06#8 ∨ op = 0x80#8 ∨ op = 0x32#8 ∨ assignedOpcodes.contains op = false := by
  by_cases h : assignedOpcodes.contains op = true
  · simp only [assignedOpcodes, List.contains_eq_mem, List.mem_cons, List.not_mem_nil, or_false, decide_eq_true_eq] at h
    rcases h with h | h | h | h | h | h <;> subst h <;> simp
  · rw [Bool.not_eq_true] at h
    exact .inr (.inr (.inr (.inr (.inr (.inr h)))))

/-- A table entry and the operands it takes give an instruction of the format's length. -/
theorem entryOf_length (op : Byte) :
    match entryOf op with
    | .f1 i => i.length = 1
    | .f2 f => ∀ d, (f d).length = 2
    | .f3 f => ∀ lo hi, (f lo hi).length = 3 := by
  rcases opcode_cases op with h | h | h | h | h | h | h
  · subst h; rfl
  · subst h; rfl
  · subst h; exact fun _ => rfl
  · subst h; exact fun _ => rfl
  · subst h; rfl
  · subst h; exact fun _ _ => rfl
  · rw [entryOf_unassigned h]; rfl

/-- Fetching moves PC past the instruction's bytes, counts the step, and changes nothing else. -/
theorem State.fetchInstr_snd (s : State) :
    s.fetchInstr.2 = { s with pc := s.pc + BitVec.ofNat 16 s.fetchInstr.1.length, steps := s.steps + 1 } := by
  have h := entryOf_length (s.memRead s.pc)
  unfold State.fetchInstr
  simp only [State.fetchByte]
  revert h
  cases entryOf (s.memRead s.pc) with
  | f1 i =>
    intro h
    simp only at h
    simp [State.fetchOperands, h, State.countStep, State.advancePc]
  | f2 f =>
    intro h
    simp only at h
    simp [State.fetchOperands, h, State.countStep, State.advancePc, State.fetchByte, BitVec.add_assoc]
  | f3 f =>
    intro h
    simp only at h
    simp [State.fetchOperands, h, State.countStep, State.advancePc, State.fetchByte, BitVec.add_assoc]

theorem Addr.add_one_add_one (a : Addr) : a + 1 + 1 = a + 2 := by rw [BitVec.add_assoc]; rfl

theorem Addr.add_two_add_one (a : Addr) : a + 2 + 1 = a + 3 := by rw [BitVec.add_assoc]; rfl

/-- The fetch of a one-byte instruction. -/
theorem State.fetchInstr_of_f1 {s : State} {i : Instr} (h : entryOf (s.memRead s.pc) = .f1 i) :
    s.fetchInstr = (i, { s with pc := s.pc + 1, steps := s.steps + 1 }) := by
  simp only [State.fetchInstr, State.fetchByte, h]
  rfl

/-- The fetch of a two-byte instruction. -/
theorem State.fetchInstr_of_f2 {s : State} {f : Byte → Instr} (h : entryOf (s.memRead s.pc) = .f2 f) :
    s.fetchInstr = (f (s.memRead (s.pc + 1)), { s with pc := s.pc + 2, steps := s.steps + 1 }) := by
  simp only [State.fetchInstr, State.fetchByte, h, ← Addr.add_one_add_one]
  rfl

/-- The fetch of a three-byte instruction. -/
theorem State.fetchInstr_of_f3 {s : State} {f : Byte → Byte → Instr} (h : entryOf (s.memRead s.pc) = .f3 f) :
    s.fetchInstr =
      (f (s.memRead (s.pc + 1)) (s.memRead (s.pc + 2)), { s with pc := s.pc + 3, steps := s.steps + 1 }) := by
  simp only [State.fetchInstr, State.fetchByte, h, ← Addr.add_two_add_one, ← Addr.add_one_add_one]
  rfl

/-- The test before each step, as a proposition. -/
theorem State.runTest_eq_true {s : State} : s.runTest = true ↔ s.halted = false ∧ s.steps < 1000 := by
  unfold State.runTest
  rw [Bool.and_eq_true, Bool.not_eq_true', decide_eq_true_eq]
  rfl

/-! ### The meanings -/

/-- What an instruction's effect can be: HLT's, a write of A or of B, a store, or none. -/
theorem exec_cases {i : Instr} {s t : State} (h : exec i s = .next t) :
    (i = .hlt ∧ t = s.setHalted) ∨
    (i = .movAB ∧ t = s.writeReg .A s.regB) ∨
    (∃ d8, i = .mviA d8 ∧ t = s.writeReg .A d8) ∨
    (∃ d8, i = .mviB d8 ∧ t = s.writeReg .B d8) ∨
    (i = .addB ∧ t = s.writeReg .A (aluAdd s.regA s.regB)) ∨
    (∃ a16, i = .staA16 a16 ∧ t = s.memWrite a16 s.regA) ∨
    (∃ op, i = .unassigned op ∧ t = s) := by
  cases i <;> simp only [exec, Host.Outcome.next.injEq, execHlt, execMovAB, execMviA, execMviB, execAddB, execStaA16,
    execUnassigned, State.storeDirect, State.readReg] at h <;> subst h <;> simp

end Sys2Proof.Machine
end

