-- ==== Sys2Proof/Laws/PerInstr.lean ====
section
/-! SUPPORT. Statements about every instruction, one lemma per constructor. -/

namespace Sys2Proof.Laws.EncodeLength

/-- An instruction is encoded in as many bytes as its length says, and the first of them alone fixes that length
(spec/30_encoding.md R39). -/
def Statement (i : Instr) : Prop :=
  (encode i).length = i.length ∧ (i.wf = true → ∀ j : Instr, j.wf = true → (encode j).head? = (encode i).head? → j.length = i.length)

/-- The lengths and first bytes of the encodings, side by side. -/
theorem head_encode (i : Instr) : (encode i).head? =
    some (match i with
      | .hlt => 0x76 | .movAB => 0x78 | .mviA _ => 0x3E | .mviB _ => 0x06 | .addB => 0x80 | .staA16 _ => 0x32
      | .unassigned op => op) := by
  cases i <;> rfl

/-- An assigned opcode byte is that of the instruction it stands for, never of the fallback entry. -/
theorem length_of_head (op : Byte) (h : assignedOpcodes.contains op = true) (j : Instr) (hj : j.wf = true)
    (hh : (encode j).head? = some op) :
    j.length = if op = 0x3E ∨ op = 0x06 then 2 else if op = 0x32 then 3 else 1 := by
  rw [head_encode] at hh
  cases j <;> simp only [Option.some.injEq] at hh <;> subst hh <;> first | rfl | (exfalso; revert h hj; simp [Instr.wf])

theorem assigned (i : Instr) (op : Byte) (h : assignedOpcodes.contains op = true) (hi : (encode i).head? = some op)
    (hl : (encode i).length = i.length) : Statement i :=
  ⟨hl, fun hw j hj hh => by rw [length_of_head op h j hj (hh.trans hi), length_of_head op h i hw hi]⟩

theorem hlt : Statement .hlt := assigned _ 0x76 (by decide) rfl rfl
theorem movAB : Statement .movAB := assigned _ 0x78 (by decide) rfl rfl
theorem mviA (d8 : Byte) : Statement (.mviA d8) := assigned _ 0x3E (by decide) rfl rfl
theorem mviB (d8 : Byte) : Statement (.mviB d8) := assigned _ 0x06 (by decide) rfl rfl
theorem addB : Statement .addB := assigned _ 0x80 (by decide) rfl rfl
theorem staA16 (a16 : Addr) : Statement (.staA16 a16) := assigned _ 0x32 (by decide) rfl rfl

theorem unassigned (op : Byte) : Statement (.unassigned op) := by
  refine ⟨rfl, fun hw j hj hh => ?_⟩
  rw [head_encode, head_encode] at hh
  cases j <;> simp only [Option.some.injEq] at hh <;> first | rfl | (exfalso; subst hh; revert hw; decide)

end Sys2Proof.Laws.EncodeLength
end

