-- ==== Sys2Proof/Laws/Step.lean ====
section
/-! SUPPORT. The step function: which kind of step a state takes, and everything a step can do. -/

namespace Sys2Proof.Machine

theorem step_of_core {s : State} (h : s.coreEnabled = true) : step s = exec s.fetchInstr.1 s.fetchInstr.2 := by
  simp [step, h, coreStep]

theorem step_of_runEnd {s : State} (h : s.runEndEnabled = true) : step s = .next s.endRun := by
  have : s.coreEnabled = false := by
    simp only [State.runEndEnabled, Bool.and_eq_true, Bool.not_eq_true'] at h
    simp [State.coreEnabled, h.2]
  simp [step, h, this]

/-- With no run in progress the step is the event step, or the block waits. -/
theorem step_of_inactive {s : State} (h : s.active = false) : step s = .next s.acceptEvent := by
  cases hi : s.input with
  | nil => simp [step, State.coreEnabled, State.runEndEnabled, State.eventEnabled, State.acceptEvent, h, hi]
  | cons e rest => simp [step, State.coreEnabled, State.runEndEnabled, State.eventEnabled, h, hi]

theorem acceptEvent_cons {s : State} {e : PortEvent} {rest : List PortEvent} (h : s.input = e :: rest) :
    s.acceptEvent = { s with input := rest }.panelStep e.event := by
  simp [State.acceptEvent, h]

/-- Everything a step can do. -/
theorem step_cases {s t : State} (h : step s = .next t) :
    (s.coreEnabled = true ∧ exec s.fetchInstr.1 s.fetchInstr.2 = .next t) ∨
    (s.runEndEnabled = true ∧ t = s.endRun) ∨
    (s.active = false ∧ s.input = [] ∧ t = s) ∨
    (s.active = false ∧ ∃ e rest, s.input = e :: rest ∧ t = { s with input := rest }.panelStep e.event) := by
  by_cases hc : s.coreEnabled = true
  · exact .inl ⟨hc, step_of_core hc ▸ h⟩
  · by_cases he : s.runEndEnabled = true
    · rw [step_of_runEnd he, Host.Outcome.next.injEq] at h
      exact .inr (.inl ⟨he, h.symm⟩)
    · have ha : s.active = false := by
        cases hact : s.active with
        | false => rfl
        | true =>
          simp only [State.coreEnabled, State.runEndEnabled, hact, Bool.true_and] at hc he
          simp [hc] at he
      rw [step_of_inactive ha, Host.Outcome.next.injEq] at h
      cases hi : s.input with
      | nil => exact .inr (.inr (.inl ⟨ha, rfl, by simpa [State.acceptEvent, hi] using h.symm⟩))
      | cons e rest =>
        exact .inr (.inr (.inr ⟨ha, e, rest, rfl, by rw [← h, acceptEvent_cons hi]⟩))

theorem runSteps_succ (k : Nat) (s : State) :
    runSteps (k + 1) s =
      match step s with
      | .next t => runSteps k t
      | .fault r => .fault r
      | .refused r => .refused r := rfl

theorem runSteps_next {s t : State} (k : Nat) (h : step s = .next t) : runSteps (k + 1) s = runSteps k t := by
  rw [runSteps_succ, h]

/-- Steps compose. -/
theorem runSteps_add {j : Nat} (k : Nat) {s t : State} (h : runSteps j s = .next t) :
    runSteps (j + k) s = runSteps k t := by
  induction j generalizing s with
  | zero => simp only [runSteps, Host.Outcome.next.injEq] at h; subst h; rw [Nat.zero_add]
  | succ j ih =>
    rw [Nat.succ_add, runSteps_succ]
    rw [runSteps_succ] at h
    cases hs : step s with
    | next u => rw [hs] at h; exact ih h
    | fault r => rw [hs] at h; cases h
    | refused r => rw [hs] at h; cases h

/-- One step of the host's `Core.run`, for each of the three outcomes. -/
theorem coreRun_succ (M : Host.Core) (k : Nat) (s : M.State) :
    (∀ t, M.step s = .next t → M.run (k + 1) s = M.run k t) ∧
    (∀ r, M.step s = .fault r → M.run (k + 1) s = .fault r) ∧
    (∀ r, M.step s = .refused r → M.run (k + 1) s = .refused r) := by
  refine ⟨fun t h => ?_, fun r h => ?_, fun r h => ?_⟩ <;> rw [Host.Core.run, h]

/-- `runSteps` is the host's `Core.run` on this machine. -/
theorem coreRun_eq_runSteps (k : Nat) (s : State) : Host.Core.run Sys2Proof.core k s = runSteps k s := by
  induction k generalizing s with
  | zero => rfl
  | succ k ih =>
    have h := coreRun_succ Sys2Proof.core k s
    rw [runSteps_succ]
    cases hs : step s with
    | next t => exact (h.1 t hs).trans (ih t)
    | fault r => exact h.2.1 r hs
    | refused r => exact h.2.2 r hs

end Sys2Proof.Machine
end

