-- ==== Sys2Proof/Tests/Slice0.lean ====
section
/-! SUPPORT. The model's own tests. Expected results are those of spec/95_test_vectors.md (the vector's id stands beside
the test) or worked by hand from the rule named. The witnesses show, for each statement with hypotheses, a concrete case
that meets all of them. -/

namespace Sys2Proof.Machine

/-- A run in progress: PC at `p`, the bytes `bs` there and zeros elsewhere, A and B as given. -/
def running (p : Addr) (bs : List Byte) (a b : Byte) : State :=
  { State.reset with
    regA := a, regB := b, pc := p, mem := Memory.writeBytes [] p bs, mode := .addressEntry, active := true }

/-- The block between runs, with one event on the port. -/
def panel (m : Mode) (wa : Addr) (buf : List Digit) (code : BitVec 3) (digit : Digit) : State :=
  { State.reset with mode := m, wa := wa, buf := buf, input := [⟨code, digit⟩] }

/-- The next state, if there is one. -/
def nextOf : Host.Outcome State Fault Refusal → Option State
  | .next t => some t
  | .fault _ => none
  | .refused _ => none

/-! ### Well-formed terms: the fallback entry never carries an assigned opcode (R45) -/

theorem test_wf_refuses_assigned_opcodes :
    [(0x76 : Byte), 0x78, 0x3E, 0x06, 0x80, 0x32].all (fun op => !(Instr.unassigned op).wf) = true := by decide
theorem test_wf_accepts_zero_and_ff : ((Instr.unassigned 0x00).wf && (Instr.unassigned 0xFF).wf) = true := by decide

/-! ### Decoding: words written out bit by bit from the encodings of 30_encoding.md R40 and R44 -/

theorem test_decode_hlt : decodeTableWord 8 0b01110110 = some .hlt := by decide
theorem test_decode_movAB : decodeTableWord 8 0b01111000 = some .movAB := by decide
theorem test_decode_mviA : decodeTableWord 16 0b10100101_00111110 = some (.mviA 0b10100101) := by decide
theorem test_decode_mviB : decodeTableWord 16 0b01111110_00000110 = some (.mviB 0b01111110) := by decide
theorem test_decode_addB : decodeTableWord 8 0b10000000 = some .addB := by decide
theorem test_decode_staA16 :
    decodeTableWord 24 0b00110000_00000001_00110010 = some (.staA16 0b00110000_00000001) := by decide
theorem test_decode_unassigned : decodeTableWord 8 0b00001110 = some (.unassigned 0b00001110) := by decide
theorem test_decode_hlt_neighbour : decodeTableWord 8 0b01110111 = some (.unassigned 0x77) := by decide
theorem test_decode_rejects_cut_sta : decode [0x32, 0x00] = .error (.missingOperand 0x32) := rfl
theorem test_decode_rejects_nothing : decode [] = .error .noOpcode := rfl
theorem test_encode_sta_low_byte_first : encode (.staA16 0x3001) = [0x32, 0x01, 0x30] := by decide

/-! ### Instructions -/

/-- V-HLT-2. -/
theorem test_hlt_wraps :
    (nextOf (step (running 0xFFFF [0x76] 0 0))).map (fun t => (t.halted, t.pc, t.steps)) = some (true, 0x0000, 1) := by decide
/-- V-HLT-1: nothing else changes. -/
theorem test_hlt_keeps_rest :
    (nextOf (step (running 0x0100 [0x76] 0x11 0x22))).map (fun t => (t.regA, t.regB, t.active)) =
      some (0x11, 0x22, true) := by decide
/-- V-MOV-1. -/
theorem test_movAB :
    (nextOf (step (running 0 [0x78, 0x76] 0x12 0x9C))).map (fun t => (t.regA, t.regB, t.pc)) = some (0x9C, 0x9C, 1) := by decide
/-- V-MOV-3. -/
theorem test_movAB_no_flags :
    (nextOf (step (running 0 [0x78, 0x76] 0x00 0xFF))).map (fun t => (t.regA, t.flags)) =
      some (0xFF, ⟨false, false, false, false, false⟩) := by decide
/-- V-MVI-3: the operand is read across the top of memory. -/
theorem test_mviA_wraps :
    (nextOf (step (running 0xFFFF [0x3E, 0xFF, 0x76] 0 0))).map (fun t => (t.regA, t.pc)) = some (0xFF, 0x0001) := by decide
/-- V-MVI-2: an operand that equals HLT's opcode is data. -/
theorem test_mviA_opcode_operand :
    (nextOf (step (running 0 [0x3E, 0x76, 0x76] 0 0))).map (fun t => (t.regA, t.halted, t.steps)) =
      some (0x76, false, 1) := by decide
/-- V-MVI-4. -/
theorem test_mviB :
    (nextOf (step (running 0 [0x06, 0x00, 0x76] 0x44 0x55))).map (fun t => (t.regA, t.regB, t.pc)) =
      some (0x44, 0x00, 2) := by decide
/-- R68's example. -/
theorem test_mviB_example :
    (nextOf (step (running 2 [0x06, 0x03] 0 0))).map (fun t => (t.regB, t.pc)) = some (0x03, 0x0004) := by decide
/-- V-ADD-2: the sum wraps and no flag records it. -/
theorem test_addB_wraps :
    (nextOf (step (running 0 [0x80, 0x76] 0xFF 0x01))).map (fun t => (t.regA, t.regB, t.flags)) =
      some (0x00, 0x01, ⟨false, false, false, false, false⟩) := by decide
/-- V-ADD-6. -/
theorem test_addB_equal_operands :
    (nextOf (step (running 0 [0x80, 0x76] 0x90 0x90))).map (fun t => t.regA) = some 0x20 := by decide
/-- V-STA-2: the operand bytes are read across the top of memory. -/
theorem test_sta_wraps :
    (nextOf (step (running 0xFFFE [0x32, 0x10, 0x20, 0x76] 0x99 0))).map (fun t => (t.memRead 0x2010, t.pc)) =
      some (0x99, 0x0001) := by decide
/-- V-STA-4: a store into its own last byte does not change the store. -/
theorem test_sta_own_byte :
    (nextOf (step (running 0 [0x32, 0x02, 0x00, 0x76] 0x55 0))).map (fun t => (t.memRead 0x0002, t.memRead 0x5502)) =
      some (0x55, 0x00) := by decide
/-- V-NOP-1: 0x0E takes no operand byte. -/
theorem test_unassigned_one_byte :
    (nextOf (step (running 0 [0x0E, 0x76] 0 0))).map (fun t => (t.pc, t.steps, t.halted)) = some (0x0001, 1, false) := by decide
/-- V-NOP-3: PC wraps. -/
theorem test_unassigned_wraps :
    (nextOf (step (running 0xFFFF [0xFF, 0x76] 0 0))).map (fun t => t.pc) = some 0x0000 := by decide

/-! ### The run -/

/-- V-LOOP-2, its last step: the budget is spent, so the run ends and no byte is fetched. -/
theorem test_budget_stop :
    (nextOf (step { running 0x02E8 [] 0 0 with steps := 1000 })).map (fun t => (t.active, t.halted, t.pc, t.steps, t.mode)) =
      some (false, false, 0x02E8, 1000, .idle) := by decide
/-- R63: with no event presented the block stands. -/
theorem test_waiting : nextOf (step State.reset) = some State.reset := by decide

/-! ### The front panel -/

/-- V-FP-5, its last event: the deposit at 0xFFFF, and the wrap. -/
theorem test_deposit_next :
    (nextOf (step (panel .dataEntry 0xFFFF [0xA, 0xB] 0b011 0))).map (fun t => (t.memRead 0xFFFF, t.wa, t.buf)) =
      some (0xAB, 0x0000, []) := by decide
/-- V-FP-6, its last event. -/
theorem test_deposit_previous :
    (nextOf (step (panel .dataEntry 0x0000 [0xC, 0xD] 0b100 0))).map (fun t => (t.memRead 0x0000, t.wa)) =
      some (0xCD, 0xFFFF) := by decide
/-- V-FP-7, its last event: the low byte of 0x123. -/
theorem test_deposit_low_byte :
    (nextOf (step (panel .dataEntry 0x0100 [0x1, 0x2, 0x3] 0b011 0))).map (fun t => (t.memRead 0x0100, t.wa)) =
      some (0x23, 0x0101) := by decide
/-- V-FP-8, its last event: an empty buffer writes nothing and moves the address. -/
theorem test_deposit_empty :
    (nextOf (step (panel .dataEntry 0x0101 [] 0b011 0))).map (fun t => (t.mem, t.wa)) = some ([], 0x0102) := by decide
/-- V-FP-17. -/
theorem test_key_drops_oldest :
    (nextOf (step (panel .dataEntry 0 [0x1, 0x2, 0x3, 0x4] 0b000 0xA))).map (fun t => t.buf) =
      some [0x2, 0x3, 0x4, 0xA] := by decide
/-- V-FP-3, its last event: the first digit is the most significant. -/
theorem test_commit_address :
    (nextOf (step (panel .addressEntry 0 [0x2, 0x3, 0x4, 0x5] 0b011 0))).map (fun t => (t.wa, t.mode, t.buf)) =
      some (0x2345, .dataEntry, []) := by decide
/-- V-FP-12, the Execute: the run starts at the working address, and the pending digits are not written. -/
theorem test_execute_drops_digits :
    (nextOf (step (panel .dataEntry 0x0200 [0x3, 0xE] 0b110 0))).map (fun t => (t.pc, t.active, t.buf.length, t.mem.length, t.wa)) =
      some (0x0200, true, 0, 0, 0x0200) := by decide
/-- V-FP-13, the Execute. -/
theorem test_execute_buffer_address :
    (nextOf (step (panel .addressEntry 0 [0x1, 0x2, 0x3, 0x4] 0b110 0))).map (fun t => (t.pc, t.active, t.wa)) =
      some (0x1234, true, 0x0000) := by decide
/-- V-FP-15: Reset keeps memory. -/
theorem test_reset_keeps_memory :
    (nextOf (step { panel .dataEntry 0x2345 [0x7] 0b001 0 with mem := [(5, 0x5A)], regC := 0x33, sp := 0 })).map
      (fun t => (t.mem, t.regC, t.sp, t.wa, t.mode)) = some ([(5, 0x5A)], 0x00, 0xFFFF, 0x0000, .idle) := by decide
/-- W7: `buf_digits` and `buf_len`. -/
theorem test_outputs_buffer :
    ((panel .addressEntry 0 [0x2, 0x3, 0x4, 0x5] 0 0).outputs.bufDigits,
      (panel .addressEntry 0 [0x2, 0x3, 0x4, 0x5] 0 0).outputs.bufLen) = (0x2345, 4) := by decide

/-! ### Memory, flags convention, placing an instruction -/

/-- The canonical form: sorted, and a written zero is not listed. -/
theorem test_memory_canonical :
    ((Memory.write [] 0x0005 0xAA).write 0x0002 0xBB).write 0x0005 0x00 = [(2, 0xBB)] := by decide
theorem test_memory_wf_refuses : (Memory.wf [(2, 0x01), (1, 0x01)] || Memory.wf [(1, 0x00)] || Memory.wf [(65536, 0x01)]) = false := by
  decide
/-- 0x0F + 0x01 = 0x10: carry out of bit 3, one 1 bit (R73). -/
theorem test_convention_flags : conventionAddFlags 0x0F 0x01 = ⟨false, false, false, false, true⟩ := by decide
/-- 0xFF + 0x01 = 0x00 (R73). -/
theorem test_convention_flags_wrap : conventionAddFlags 0xFF 0x01 = ⟨true, false, true, true, true⟩ := by decide
theorem test_withFetchWord_sta :
    (nextOf (step { State.reset.withFetchWord 24 0x300032 with regA := 0x2A })).map (fun t => (t.memRead 0x3000, t.pc)) =
      some (0x2A, 0x0003) := by decide

/-! ### Witnesses -/

theorem witness_DecodeOfEncodeIsIdentity : (Instr.unassigned 0x0E).wf = true ∧ (Instr.staA16 0xFFFF).wf = true := by decide
theorem witness_DecodedBytesAreTheEncoding : decode [0x32, 0x10, 0x20, 0x76] = .ok (.staA16 0x2010, [0x76]) := rfl
theorem witness_LengthDecidedByOpcodeByte : 2 ≤ [(0x10 : Byte), 0x20].length := by decide
theorem witness_OpcodeByteSelectsItsEntry_unassigned :
    (0x77 : Byte) ≠ 0x76 ∧ (0x77 : Byte) ≠ 0x78 ∧ (0x77 : Byte) ≠ 0x3E ∧ (0x77 : Byte) ≠ 0x06 ∧ (0x77 : Byte) ≠ 0x80 ∧
      (0x77 : Byte) ≠ 0x32 := by decide
/-- The last step of a budget still runs; the instruction straddles the top of memory. -/
def witnessSta : State := { running 0xFFFE [0x32, 0x10, 0x20] 0x76 0x01 with steps := 999 }
theorem witness_StepRunsDecodedInstruction :
    witnessSta.Running ∧
      decode [witnessSta.memRead witnessSta.pc, witnessSta.memRead (witnessSta.pc + 1), witnessSta.memRead (witnessSta.pc + 2)] =
        .ok (.staA16 0x2010, []) := ⟨by decide, rfl⟩
theorem witness_OneKindOfStep_waiting :
    State.reset.coreEnabled = false ∧ State.reset.runEndEnabled = false ∧ State.reset.eventEnabled = false := by decide
theorem witness_NothingRaisesAnException :
    (running 0 [] 0 0).active = true ∧ (panel .idle 0 [] 0 0).input ≠ [] := by decide
theorem witness_RegisterInstructionsFrame :
    (∀ a16, Instr.addB ≠ .staA16 a16) ∧
      exec .addB (running 0 [] 0x80 0x80) = .next { running 0 [] 0x00 0x80 with active := true } := ⟨nofun, rfl⟩
theorem witness_RegisterInstructionsFrame_destination :
    destination (.mviB 0x03) ≠ some .A ∧ destination .hlt ≠ some .A ∧ Instr.addB ≠ .hlt := by decide
/-- V-HLT-1's state, in the run. -/
def witnessHlt : State := running 0x0100 [0x76] 0 0
theorem witness_HltStep : witnessHlt.Running ∧ witnessHlt.memRead witnessHlt.pc = 0x76 := by decide
theorem witness_MovABStep : (running 0 [0x78] 1 2).Running ∧ (running 0 [0x78] 1 2).memRead 0 = 0x78 := by decide
theorem witness_MviAStep : (running 0xFFFF [0x3E, 0x05] 0 0).Running ∧ (running 0xFFFF [0x3E, 0x05] 0 0).memRead 0xFFFF = 0x3E := by
  decide
theorem witness_MviBStep : (running 2 [0x06, 0x03] 0 0).Running ∧ (running 2 [0x06, 0x03] 0 0).memRead 2 = 0x06 := by decide
theorem witness_AddBStep : (running 0 [0x80] 0xFF 0x01).Running ∧ (running 0 [0x80] 0xFF 0x01).memRead 0 = 0x80 := by decide
theorem witness_StaStep :
    witnessSta.Running ∧ witnessSta.memRead witnessSta.pc = 0x32 ∧
      (0x2010 : Addr) = concatBytes (witnessSta.memRead (witnessSta.pc + 2)) (witnessSta.memRead (witnessSta.pc + 1)) := by decide
theorem witness_UnassignedStep :
    (running 0xFFFF [0xFF] 0 0).Running ∧ (Instr.unassigned ((running 0xFFFF [0xFF] 0 0).memRead 0xFFFF)).wf = true := by decide
theorem witness_EveryArrayIsOneMemory : Memory.wf [(0, 0x01), (65535, 0xFF)] = true ∧ Memory.read [(0, 0x01), (65535, 0xFF)] 0xFFFF = 0xFF := by
  decide
theorem witness_OnlyStaAndDepositsChangeMemory_sta :
    (nextOf (step witnessSta)).map (fun t => t.memRead 0x2010) = some 0x76 ∧ witnessSta.memRead 0x2010 ≠ 0x76 := by decide
theorem witness_OnlyStaAndDepositsChangeMemory_deposit :
    (nextOf (step (panel .dataEntry 0xFFFF [0xB] 0b100 0))).map (fun t => t.memRead 0xFFFF) = some 0x0B ∧
      (panel .dataEntry 0xFFFF [0xB] 0b100 0).memRead 0xFFFF ≠ 0x0B := by decide
/-- V-STA-3 with any A. -/
def plantAt (p : Addr) (lo hi a : Byte) : State := running p [0x32, lo, hi, 0x00, 0x77] a 0
/-- V-STA-3. -/
def witnessPlant : State := plantAt 0 0x03 0x00 0x76
theorem witness_StoredOpcodeIsExecutedNext :
    witnessPlant.Running ∧ witnessPlant.steps + 1 < 1000 ∧ witnessPlant.memRead witnessPlant.pc = 0x32 ∧
      concatBytes (witnessPlant.memRead (witnessPlant.pc + 2)) (witnessPlant.memRead (witnessPlant.pc + 1)) = witnessPlant.pc + 3 ∧
      witnessPlant.regA = 0x76 := by decide
/-- Another opcode planted, across the top of memory, with exactly two steps of budget left. -/
def witnessPlantMvi : State := { plantAt 0xFFFE 0x01 0x00 0x3E with steps := 998 }
theorem witness_StoredOpcodeIsExecutedNext_other :
    witnessPlantMvi.Running ∧ witnessPlantMvi.steps + 1 < 1000 ∧ witnessPlantMvi.memRead witnessPlantMvi.pc = 0x32 ∧
      concatBytes (witnessPlantMvi.memRead (witnessPlantMvi.pc + 2)) (witnessPlantMvi.memRead (witnessPlantMvi.pc + 1)) =
        witnessPlantMvi.pc + 3 := by decide
/-- The event `code` on the port in mode `m` is accepted as `e`. -/
theorem accepts_panel (m : Mode) (wa : Addr) (buf : List Digit) (code : BitVec 3) (digit : Digit) :
    (panel m wa buf code digit).accepts (PortEvent.event ⟨code, digit⟩) := ⟨rfl, _, _, rfl, rfl⟩
theorem witness_PcMoves_execute_and_reset :
    (panel .addressEntry 0 [0xF] 0b110 0).accepts .execute ∧ (panel .dataEntry 0xFFFF [] 0b110 0).accepts .execute ∧
      (panel .idle 0 [] 0b001 0).accepts .reset :=
  ⟨accepts_panel .addressEntry 0 [0xF] 0b110 0, accepts_panel .dataEntry 0xFFFF [] 0b110 0, accepts_panel .idle 0 [] 0b001 0⟩
theorem witness_PcMoves_other :
    ¬(panel .idle 0 [] 0b110 0).Running ∧ (panel .idle 0 [] 0b110 0).mode = .idle ∧ ¬(panel .idle 0 [] 0b110 0).accepts .reset := by
  refine ⟨by decide, rfl, ?_⟩
  rintro ⟨-, p, rest, h, he⟩
  obtain ⟨rfl, rfl⟩ : (⟨0b110, 0⟩ : PortEvent) = p ∧ [] = rest := by simpa [panel] using h
  exact absurd he (by decide)
/-- A core step accepts no event. -/
theorem not_accepts_running (p : Addr) (bs : List Byte) (a b : Byte) (e : Event) : ¬(running p bs a b).accepts e := by
  rintro ⟨h, -⟩
  exact absurd (show true = false from h) (by decide)
theorem witness_GeneralRegisterWriters :
    nextOf (step (running 0 [0x3E, 0x05] 0 0)) = some { running 0 [0x3E, 0x05] 5 0 with pc := 2, steps := 1 } ∧
      nextOf (step (running 0 [0x06, 0x05] 0 0)) = some { running 0 [0x06, 0x05] 0 5 with pc := 2, steps := 1 } ∧
      ¬(running 0 [0x3E, 0x05] 0 0).accepts .reset := ⟨by decide, by decide, not_accepts_running _ _ _ _ _⟩
theorem witness_OnlyResetTouchesSpAndFlags :
    (running 0 [0x80] 0xFF 0x01).active = true ∧ ¬(running 0 [0x80] 0xFF 0x01).accepts .reset ∧
      { panel .dataEntry 0 [] 0b001 0 with sp := 0x1234 }.accepts .reset :=
  ⟨rfl, not_accepts_running _ _ _ _ _, rfl, _, _, rfl, rfl⟩
theorem witness_RunStart :
    (panel .addressEntry 0 [] 0b110 0).accepts .execute ∧ (panel .addressEntry 0 [] 0b110 0).mode ≠ .idle ∧
      (panel .dataEntry 0xFFFF [0x3, 0xE] 0b110 0).accepts .execute ∧ (panel .dataEntry 0xFFFF [0x3, 0xE] 0b110 0).mode ≠ .idle :=
  ⟨accepts_panel .addressEntry 0 [] 0b110 0, by decide, accepts_panel .dataEntry 0xFFFF [0x3, 0xE] 0b110 0, by decide⟩
theorem witness_HaltEndsTheRun : witnessHlt.Running ∧ witnessHlt.memRead witnessHlt.pc = 0x76 := by decide
theorem witness_BudgetExhaustion_spent :
    ({ running 0 [] 0 0 with steps := 1000 } : State).active = true ∧
      ({ running 0 [] 0 0 with steps := 1000 } : State).halted = false := by decide
/-- V-LOOP-2's memory: every byte is 0x00, an unassigned opcode. -/
theorem witness_BudgetExhaustion_noops :
    (running 0xFF00 [] 0 0).active = true ∧ (running 0xFF00 [] 0 0).halted = false ∧ (running 0xFF00 [] 0 0).steps = 0 ∧
      ∀ k : Nat, k ≤ 1000 → (Instr.unassigned ((running 0xFF00 [] 0 0).memRead ((running 0xFF00 [] 0 0).pc + BitVec.ofNat 16 k))).wf = true :=
  ⟨rfl, rfl, rfl, fun _ _ => rfl⟩
theorem witness_RunEnd :
    ({ running 0 [] 0 0 with halted := true } : State).active = true ∧ ({ running 0 [] 0 0 with steps := 1000 } : State).steps = 1000 := by
  decide
theorem witness_HaltOnTheLastBudgetStep :
    ({ witnessHlt with steps := 999 } : State).active = true ∧ ({ witnessHlt with steps := 999 } : State).halted = false ∧
      ({ witnessHlt with steps := 999 } : State).memRead 0x0100 = 0x76 := by decide
theorem witness_EveryRunEnds : (running 0xFF00 [] 0 0).active = true := rfl
theorem witness_ExecuteRunsThePseudocode :
    (panel .dataEntry 0x0200 [0x3] 0b110 0).Offered ⟨0b110, 0⟩ [] ∧ PortEvent.event ⟨0b110, 0⟩ = .execute ∧
      (panel .dataEntry 0x0200 [0x3] 0b110 0).mode ≠ .idle := by decide
theorem witness_ExecuteRunsThePseudocode_start :
    (nextOf (step (panel .addressEntry 0 [] 0b110 0))).map (fun t => t.active) = some true ∧
      (panel .addressEntry 0 [] 0b110 0).active = false := by decide
theorem witness_IgnoredEvents :
    (panel .idle 0 [] 0b000 0xF).Offered ⟨0b000, 0xF⟩ [] ∧ (panel .addressEntry 0 [0x1, 0x2] 0b100 0).Offered ⟨0b100, 0⟩ [] ∧
      (panel .idle 0 [] 0b100 0).Offered ⟨0b100, 0⟩ [] ∧ (panel .idle 0 [] 0b110 0).Offered ⟨0b110, 0⟩ [] := by decide
theorem witness_EventsIgnoredByDecision :
    (panel .idle 0 [] 0b011 0).Offered ⟨0b011, 0⟩ [] ∧ (panel .dataEntry 0 [0x1] 0b111 0).Offered ⟨0b111, 0⟩ [] := by decide
theorem witness_KeyAppends :
    (panel .dataEntry 0 [0x1, 0x2, 0x3, 0x4] 0b000 0xA).Offered ⟨0b000, 0xA⟩ [] ∧ (panel .addressEntry 0 [] 0b000 0).mode ≠ .idle := by decide
theorem witness_ExamineAndGo :
    (panel .dataEntry 0 [0x1] 0b010 0).Offered ⟨0b010, 0⟩ [] ∧ (panel .idle 0 [] 0b101 0).Offered ⟨0b101, 0⟩ [] := by decide
theorem witness_NextCommits :
    (panel .addressEntry 0 [0xF, 0xF, 0xF, 0xF] 0b011 0).Offered ⟨0b011, 0⟩ [] ∧ [(0xF : Digit), 0xF, 0xF, 0xF].length ≤ 4 ∧
      (panel .addressEntry 5 [] 0b011 0).Offered ⟨0b011, 0⟩ [] := by decide
theorem witness_Deposit :
    (panel .dataEntry 0xFFFF [0xA, 0xB] 0b011 0).Offered ⟨0b011, 0⟩ [] ∧ (panel .dataEntry 0 [] 0b100 0).Offered ⟨0b100, 0⟩ [] := by decide
theorem witness_BufferValue : [(0x2 : Digit), 0x3, 0x4, 0x5] ≠ [] ∧ bufValue [0x2, 0x3, 0x4, 0x5] = 0x2345 := by decide
theorem witness_ExecuteStartsTheRun :
    (panel .addressEntry 0 [0x1] 0b110 0).Offered ⟨0b110, 0⟩ [] ∧ (panel .dataEntry 7 [] 0b110 0).Offered ⟨0b110, 0⟩ [] := by decide
theorem witness_ResetEvent : ({ panel .dataEntry 7 [0x1] 0b001 0 with mem := [(3, 0x01)] } : State).Offered ⟨0b001, 0⟩ [] := by decide
theorem witness_DataEntryEntered :
    (nextOf (step (panel .addressEntry 0 [0x2] 0b011 0))).map (fun t => t.mode) = some .dataEntry ∧
      (panel .addressEntry 0 [0x2] 0b011 0).mode ≠ .dataEntry := by decide
theorem witness_EventsAreHeld :
    ({ running 0 [0x76] 0 0 with input := [⟨0b001, 0⟩] } : State).active = true ∧ (panel .idle 0 [] 0b111 0).Offered ⟨0b111, 0⟩ [] := by
  decide
theorem witness_OutputsShowTheState :
    (panel .addressEntry 0 [0xF, 0xF, 0xF, 0xF] 0 0).buf.length ≤ 4 ∧ ({ running 0 [] 0 0 with steps := 1000 } : State).steps ≤ 1000 := by
  decide
theorem witness_StepKeepsInv : witnessSta.Inv ∧ (nextOf (step witnessSta)).isSome = true := by decide
theorem witness_PowerOn : Memory.wf [(0, 0x76), (65535, 0x01)] = true := by decide
theorem witness_Reachable : Reachable (State.reset.present ⟨0b110, 0⟩) := .present _ _ (.powerOn [] rfl)

end Sys2Proof.Machine
end

section
/-! Proofs about the registers of spec/10_state.md: the general registers at reset and at a run start (R13), and SP and
the flags, which nothing but reset touches (R15, R16). -/

namespace Sys2Proof.Machine

/-! ### Every step completes -/

theorem exec_completes (i : Instr) (s : State) : ∃ t, exec i s = .next t := by
  cases i <;> exact ⟨_, rfl⟩

theorem step_completes (s : State) : ∃ t, step s = .next t := by
  unfold step
  split_ifs
  · exact exec_completes _ _
  all_goals exact ⟨_, rfl⟩

/-! ### Accepting an event -/

/-- An accepted event is taken off the port, and the step applies the transition table's rule for it. -/
theorem step_of_accepts {s : State} {e : Event} (h : s.accepts e) :
    ∃ rest, step s = .next ({ s with input := rest }.panelStep e) := by
  obtain ⟨hactive, p, rest, hinput, rfl⟩ := h
  exact ⟨rest, by rw [step_of_inactive hactive, acceptEvent_cons hinput]⟩

theorem panelStep_reset (s : State) : s.panelStep .reset = s.panelReset := by
  unfold State.panelStep
  cases s.mode <;> rfl

/-- The registers R111 assigns, whatever the mode and the state before. -/
theorem step_of_accepts_reset {s : State} (h : s.accepts .reset) :
    ∃ t, step s = .next t ∧ (∀ r, t.readReg r = 0x00) ∧ t.sp = 0xFFFF ∧
      t.flags = ⟨false, false, false, false, false⟩ := by
  obtain ⟨rest, hstep⟩ := step_of_accepts h
  rw [panelStep_reset] at hstep
  exact ⟨_, hstep, fun r => by cases r <;> rfl, rfl, rfl⟩

@[simp] theorem State.readReg_startRun (s : State) (start : Addr) (r : Reg) :
    (s.startRun start).readReg r = s.readReg r := by
  cases r <;> rfl

/-- In each mode, the rule for Execute keeps the general registers: ignored, or one of the two run starts. -/
theorem readReg_panelStep_execute (s : State) (r : Reg) : (s.panelStep .execute).readReg r = s.readReg r := by
  cases hmode : s.mode with
  | idle => simp only [State.panelStep, hmode, State.panelIgnore]
  | addressEntry =>
    simp only [State.panelStep, hmode, State.panelExecuteBuffer, State.readReg_startRun]
    cases r <;> rfl
  | dataEntry =>
    simp only [State.panelStep, hmode, State.panelExecuteWorking, State.readReg_startRun]
    cases r <;> rfl

/-! ### SP and the flags replaced -/

/-- The state with another SP and other flags. That an operation commutes with this replacement says at once that it
neither reads nor writes them. -/
def State.withSpFlags (s : State) (v : Addr) (f : Flags) : State := { s with sp := v, flags := f }

@[simp] theorem State.withSpFlags_sp (s : State) (v : Addr) (f : Flags) : (s.withSpFlags v f).sp = v := rfl
@[simp] theorem State.withSpFlags_flags (s : State) (v : Addr) (f : Flags) : (s.withSpFlags v f).flags = f := rfl
@[simp] theorem State.withSpFlags_mode (s : State) (v : Addr) (f : Flags) : (s.withSpFlags v f).mode = s.mode := rfl
@[simp] theorem State.withSpFlags_buf (s : State) (v : Addr) (f : Flags) : (s.withSpFlags v f).buf = s.buf := rfl
@[simp] theorem State.withSpFlags_self (s : State) : s.withSpFlags s.sp s.flags = s := rfl

theorem State.fetchOperands_withSpFlags (entry : Entry) (s : State) (v : Addr) (f : Flags) :
    State.fetchOperands entry (s.withSpFlags v f) =
      ((State.fetchOperands entry s).1, (State.fetchOperands entry s).2.withSpFlags v f) := by
  cases entry <;> rfl

theorem State.fetchInstr_withSpFlags (s : State) (v : Addr) (f : Flags) :
    (s.withSpFlags v f).fetchInstr = (s.fetchInstr.1, s.fetchInstr.2.withSpFlags v f) :=
  State.fetchOperands_withSpFlags _ s.fetchByte.2.countStep v f

theorem exec_withSpFlags {i : Instr} {s t : State} (h : exec i s = .next t) (v : Addr) (f : Flags) :
    exec i (s.withSpFlags v f) = .next (t.withSpFlags v f) := by
  obtain ⟨rfl, rfl⟩ | ⟨rfl, rfl⟩ | ⟨d8, rfl, rfl⟩ | ⟨d8, rfl, rfl⟩ | ⟨rfl, rfl⟩ | ⟨a16, rfl, rfl⟩ | ⟨op, rfl, rfl⟩ :=
    exec_cases h <;> rfl

theorem State.panelDeposit_withSpFlags (s : State) (v : Addr) (f : Flags) :
    (s.withSpFlags v f).panelDeposit = s.panelDeposit.withSpFlags v f := by
  unfold State.panelDeposit
  rw [State.withSpFlags_buf]
  cases s.buf <;> rfl

theorem State.panelDepositNext_withSpFlags (s : State) (v : Addr) (f : Flags) :
    (s.withSpFlags v f).panelDepositNext = s.panelDepositNext.withSpFlags v f := by
  unfold State.panelDepositNext
  rw [State.panelDeposit_withSpFlags]
  rfl

theorem State.panelDepositPrevious_withSpFlags (s : State) (v : Addr) (f : Flags) :
    (s.withSpFlags v f).panelDepositPrevious = s.panelDepositPrevious.withSpFlags v f := by
  unfold State.panelDepositPrevious
  rw [State.panelDeposit_withSpFlags]
  rfl

/-- Of the transition table's rules, only the one for Reset reads or writes SP or the flags. -/
theorem State.panelStep_withSpFlags (s : State) {e : Event} (he : e ≠ .reset) (v : Addr) (f : Flags) :
    (s.withSpFlags v f).panelStep e = (s.panelStep e).withSpFlags v f := by
  unfold State.panelStep
  rw [State.withSpFlags_mode]
  cases e with
  | reset => exact absurd rfl he
  | next =>
    cases s.mode with
    | idle => rfl
    | addressEntry => rfl
    | dataEntry => exact s.panelDepositNext_withSpFlags v f
  | previous =>
    cases s.mode with
    | idle => rfl
    | addressEntry => rfl
    | dataEntry => exact s.panelDepositPrevious_withSpFlags v f
  | key d => cases s.mode <;> rfl
  | examineMemory => cases s.mode <;> rfl
  | go => cases s.mode <;> rfl
  | execute => cases s.mode <;> rfl
  | reserved => cases s.mode <;> rfl

/-- A step that accepts no Reset goes the same way whatever SP and the flags are, and carries them along. -/
theorem step_withSpFlags {s t : State} (h : step s = .next t) (hr : ¬s.accepts .reset) (v : Addr) (f : Flags) :
    step (s.withSpFlags v f) = .next (t.withSpFlags v f) := by
  obtain ⟨hcore, hexec⟩ | ⟨hend, rfl⟩ | ⟨hactive, hinput, rfl⟩ | ⟨hactive, p, rest, hinput, rfl⟩ := step_cases h
  · rw [step_of_core (s := s.withSpFlags v f) hcore, State.fetchInstr_withSpFlags]
    exact exec_withSpFlags hexec v f
  · exact step_of_runEnd (s := s.withSpFlags v f) hend
  · rw [step_of_inactive hactive, Host.Outcome.next.injEq] at h
    rw [step_of_inactive (s := t.withSpFlags v f) hactive]
    simp only [State.acceptEvent, State.withSpFlags, hinput]
  · have hevent : p.event ≠ .reset := fun he => hr ⟨hactive, p, rest, hinput, he⟩
    rw [step_of_inactive (s := s.withSpFlags v f) hactive, acceptEvent_cons (s := s.withSpFlags v f) hinput]
    exact congrArg Host.Outcome.next (State.panelStep_withSpFlags { s with input := rest } hevent v f)

/-- What goes the same way whatever SP and the flags are, also when they are the state's own, has kept them. -/
theorem step_keeps_sp_flags {s t : State} (h : step s = .next t) (hr : ¬s.accepts .reset) :
    t.sp = s.sp ∧ t.flags = s.flags := by
  have hself := step_withSpFlags h hr s.sp s.flags
  rw [State.withSpFlags_self, h, Host.Outcome.next.injEq] at hself
  exact ⟨(congrArg State.sp hself).trans (t.withSpFlags_sp ..), (congrArg State.flags hself).trans (t.withSpFlags_flags ..)⟩

/-! ### The obligations -/

/-- Settles O31: Reset assigns each general register 0x00, and each of the three rules for Execute keeps them all. -/
theorem generalRegistersAtResetAndRunStart : Obligations.GeneralRegistersAtResetAndRunStart := by
  refine ⟨fun s hs => ?_, fun s hs => ?_⟩
  · obtain ⟨t, hstep, hregs, -, -⟩ := step_of_accepts_reset hs
    exact ⟨t, hstep, hregs⟩
  · obtain ⟨rest, hstep⟩ := step_of_accepts hs
    refine ⟨_, hstep, fun r => ?_⟩
    rw [readReg_panelStep_execute]
    cases r <;> rfl

/-- Settles O32: every step but an accepted Reset commutes with replacing SP. -/
theorem onlyResetTouchesSp : Obligations.OnlyResetTouchesSp := by
  refine ⟨fun s v _ hr => ?_, fun s hs => ?_⟩
  · obtain ⟨t, hstep⟩ := step_completes s
    obtain ⟨hsp, hflags⟩ := step_keeps_sp_flags hstep hr
    have hother : step (s.withSpFlags v s.flags) = .next (t.withSpFlags v t.flags) := by
      rw [hflags]
      exact step_withSpFlags hstep hr v s.flags
    exact ⟨t, hstep, hsp, hother⟩
  · obtain ⟨t, hstep, -, hsp, -⟩ := step_of_accepts_reset hs
    exact ⟨t, hstep, hsp⟩

/-- Settles O33: every step but an accepted Reset commutes with replacing the flags. -/
theorem onlyResetTouchesFlags : Obligations.OnlyResetTouchesFlags := by
  refine ⟨fun s f _ hr => ?_, fun s hs => ?_⟩
  · obtain ⟨t, hstep⟩ := step_completes s
    obtain ⟨hsp, hflags⟩ := step_keeps_sp_flags hstep hr
    have hother : step (s.withSpFlags s.sp f) = .next (t.withSpFlags t.sp f) := by
      rw [hsp]
      exact step_withSpFlags hstep hr s.sp f
    exact ⟨t, hstep, hflags, hother⟩
  · obtain ⟨t, hstep, -, -, hflags⟩ := step_of_accepts_reset hs
    exact ⟨t, hstep, hflags⟩

end Sys2Proof.Machine
end

section
/-! Proofs about the memory of spec/20_memory.md: what a read returns after a write (R24). -/

namespace Sys2Proof.Machine

/-- `MemRead` after `MemWrite` (R24): the byte written at its own address, the byte before at every other. -/
theorem State.memRead_memWrite (s : State) (a : Addr) (v : Byte) (x : Addr) :
    (s.memWrite a v).memRead x = if x = a then v else s.memRead x := by
  simp only [State.memRead, State.memWrite_mem]
  exact Memory.read_write s.mem a v x

@[simp] theorem State.memRead_memWrite_same (s : State) (a : Addr) (v : Byte) : (s.memWrite a v).memRead a = v := by
  rw [State.memRead_memWrite, if_pos rfl]

theorem State.memRead_memWrite_of_ne (s : State) {a x : Addr} (v : Byte) (h : x ≠ a) :
    (s.memWrite a v).memRead x = s.memRead x := by
  rw [State.memRead_memWrite, if_neg h]

/-- Settles O23: the cell written reads back, every other cell reads as before, and only the memory field is assigned. -/
theorem memReadReturnsLastWrite : Obligations.MemReadReturnsLastWrite := by
  intro s a v
  have hframe : s.memWrite a v = { s with mem := (s.memWrite a v).mem } := rfl
  exact ⟨s.memRead_memWrite_same a v, fun x hx => s.memRead_memWrite_of_ne v hx, hframe⟩

end Sys2Proof.Machine
end

section
/-! Proofs about the encoding of spec/30_encoding.md: the length an opcode byte decides (R39), the table entry it selects
(R45), and the unassigned bytes as one-byte no-ops (R46). -/

namespace Sys2Proof

/-! ### Decoding, by the format of the selected entry -/

theorem decode_of_f1 {op : Byte} {i : Instr} (h : entryOf op = .f1 i) (rest : List Byte) :
    decode (op :: rest) = .ok (i, rest) := by
  simp only [decode, h]

theorem decode_of_f2 {op : Byte} {f : Byte → Instr} (h : entryOf op = .f2 f) (d8 : Byte) (rest : List Byte) :
    decode (op :: d8 :: rest) = .ok (f d8, rest) := by
  simp only [decode, h]

theorem decode_of_f3 {op : Byte} {f : Byte → Byte → Instr} (h : entryOf op = .f3 f) (lo hi : Byte) (rest : List Byte) :
    decode (op :: lo :: hi :: rest) = .ok (f lo hi, rest) := by
  simp only [decode, h]

/-! ### The unassigned bytes -/

theorem not_assigned_iff (op : Byte) : assignedOpcodes.contains op = false ↔
    op ≠ 0x76 ∧ op ≠ 0x78 ∧ op ≠ 0x3E ∧ op ≠ 0x06 ∧ op ≠ 0x80 ∧ op ≠ 0x32 := by
  simp [assignedOpcodes]

theorem Instr.wf_unassigned {op : Byte} : (Instr.unassigned op).wf = true ↔ assignedOpcodes.contains op = false := by
  rw [Instr.wf, Bool.not_eq_true']

/-! ### Lengths -/

/-- The bytes an entry's format takes, opcode byte included (R40). -/
def Entry.length : Entry → Nat
  | .f1 _ => 1
  | .f2 _ => 2
  | .f3 _ => 3

/-- The length column of R39. -/
theorem length_entryOf (op : Byte) :
    (entryOf op).length = if op = 0x3E ∨ op = 0x06 then 2 else if op = 0x32 then 3 else 1 := by
  rcases Machine.opcode_cases op with rfl | rfl | rfl | rfl | rfl | rfl | h
  · rfl
  · rfl
  · rfl
  · rfl
  · rfl
  · rfl
  · obtain ⟨-, -, h3E, h06, -, h32⟩ := (not_assigned_iff op).mp h
    rw [Machine.entryOf_unassigned h, if_neg (not_or.mpr ⟨h3E, h06⟩), if_neg h32]
    rfl

/-- With enough bytes behind the opcode byte, decoding takes as many bytes as the selected entry's format has. -/
theorem decode_takes_entry_length (op : Byte) {rest : List Byte} (hrest : 2 ≤ rest.length) :
    ∃ i : Instr, decode (op :: rest) = .ok (i, rest.drop (i.length - 1)) ∧ i.length = (entryOf op).length := by
  obtain ⟨b1, b2, tail, rfl⟩ : ∃ b1 b2 tail, rest = b1 :: b2 :: tail := by
    match rest, hrest with
    | b1 :: b2 :: tail, _ => exact ⟨b1, b2, tail, rfl⟩
  have hlength := Machine.entryOf_length op
  cases hentry : entryOf op with
  | f1 i =>
    rw [hentry] at hlength
    exact ⟨i, by rw [decode_of_f1 hentry, hlength]; rfl, hlength⟩
  | f2 f =>
    rw [hentry] at hlength
    exact ⟨f b1, by rw [decode_of_f2 hentry, hlength]; rfl, hlength b1⟩
  | f3 f =>
    rw [hentry] at hlength
    exact ⟨f b1 b2, by rw [decode_of_f3 hentry, hlength]; rfl, hlength b1 b2⟩

/-- Settles O3: decoding takes the selected entry's length, and the opcode byte alone decides that length. -/
theorem lengthDecidedByOpcodeByte : Obligations.LengthDecidedByOpcodeByte := by
  intro op rest hrest
  rw [← length_entryOf]
  exact decode_takes_entry_length op hrest

/-! ### The entry an opcode byte selects -/

/-- The number an operand pair of STA stands for: its second byte is the high one (R40). -/
theorem toNat_concatBytes (hi lo : Byte) : (concatBytes hi lo).toNat = hi.toNat * 256 + lo.toNat := by
  rw [concatBytes, BitVec.toNat_append, ← Nat.shiftLeft_add_eq_or_of_lt lo.isLt, Nat.shiftLeft_eq]

/-- Settles O4: each byte's entry in the dispatch table, decoded by its format. -/
theorem opcodeByteSelectsItsEntry : Obligations.OpcodeByteSelectsItsEntry := by
  intro op b1 b2
  refine ⟨?hlt, ?movAB, ?mviA, ?mviB, ?addB, ?staA16, ?unassigned⟩
  case hlt => rintro rfl; exact decode_of_f1 rfl _
  case movAB => rintro rfl; exact decode_of_f1 rfl _
  case mviA => rintro rfl; exact decode_of_f2 rfl _ _
  case mviB => rintro rfl; exact decode_of_f2 rfl _ _
  case addB => rintro rfl; exact decode_of_f1 rfl _
  case staA16 =>
    rintro rfl
    have hentry : entryOf 0x32 = .f3 fun lo hi => .staA16 (concatBytes hi lo) := rfl
    exact ⟨concatBytes b2 b1, toNat_concatBytes b2 b1, decode_of_f3 hentry b1 b2 []⟩
  case unassigned =>
    intro h76 h78 h3E h06 h80 h32
    have hnot := (not_assigned_iff op).mpr ⟨h76, h78, h3E, h06, h80, h32⟩
    exact decode_of_f1 (Machine.entryOf_unassigned hnot) _

end Sys2Proof

namespace Sys2Proof.Machine

/-! ### The step of a one-byte instruction -/

/-- R63's condition for a core step is the one the model tests. -/
theorem State.Running.coreEnabled {s : State} (h : s.Running) : s.coreEnabled = true := by
  obtain ⟨hactive, htest⟩ := h
  rw [State.coreEnabled, hactive, State.runTest_eq_true.mpr htest]
  rfl

/-- A one-byte instruction at PC runs from the state with PC moved by 1 and the step counted (R55). -/
theorem step_of_f1 {s : State} {i : Instr} (hs : s.Running) (h : entryOf (s.memRead s.pc) = .f1 i) :
    step s = exec i { s with pc := s.pc + 1, steps := s.steps + 1 } := by
  rw [step_of_core hs.coreEnabled, State.fetchInstr_of_f1 h]

/-! ### The 250 unassigned values -/

/-- A number below 256 stands for an unassigned byte exactly when it is the value of none of the six assigned ones. -/
theorem wf_unassigned_ofNat {n : Nat} (hn : n < 256) :
    (Instr.unassigned (BitVec.ofNat 8 n)).wf = true ↔ n ∉ assignedOpcodes.map BitVec.toNat := by
  have hval : (BitVec.ofNat 8 n).toNat = n := Nat.mod_eq_of_lt hn
  rw [Instr.wf_unassigned, List.contains_eq_mem, decide_eq_false_iff_not,
    ← List.mem_map_of_injective BitVec.toNat_injective, hval]

/-- The six assigned values are distinct and below 256, so 256 - 6 values are left. -/
theorem count_unassigned :
    ((List.range 256).filter fun n => (Instr.unassigned (BitVec.ofNat 8 n)).wf).length = 250 := by
  have hset : ((List.range 256).filter fun n => (Instr.unassigned (BitVec.ofNat 8 n)).wf).toFinset =
      Finset.range 256 \ (assignedOpcodes.map BitVec.toNat).toFinset := by
    ext n
    rw [List.mem_toFinset, List.mem_filter, List.mem_range, Finset.mem_sdiff, Finset.mem_range, List.mem_toFinset]
    exact and_congr_right wf_unassigned_ofNat
  have hsub : (assignedOpcodes.map BitVec.toNat).toFinset ⊆ Finset.range 256 := fun n hn => by
    obtain ⟨op, -, rfl⟩ := List.mem_map.mp (List.mem_toFinset.mp hn)
    exact Finset.mem_range.mpr op.isLt
  have hsix : (assignedOpcodes.map BitVec.toNat).toFinset.card = 6 := by decide
  rw [← List.toFinset_card_of_nodup (List.nodup_range.filter _), hset, Finset.card_sdiff_of_subset hsub,
    Finset.card_range, hsix]

/-! ### The obligation -/

/-- Settles O22: an unassigned byte selects the fallback entry, a one-byte instruction without effect. -/
theorem unassignedStep : Obligations.UnassignedStep := by
  refine ⟨count_unassigned, fun s hs hwf => ?_⟩
  rw [step_of_f1 hs (entryOf_unassigned (Instr.wf_unassigned.mp hwf))]
  rfl

end Sys2Proof.Machine
end

section
/-! Proofs about the end of a run in spec/40_execution_loop.md: the condition of the run-end step (R63), runs of no-op
bytes, and budget exhaustion (R58). -/

namespace Sys2Proof.Machine

/-- R63's condition for a run-end step, as a proposition. -/
theorem State.runEndEnabled_eq_true {s : State} :
    s.runEndEnabled = true ↔ s.active = true ∧ (s.halted = true ∨ 1000 ≤ s.steps) := by
  rw [State.runEndEnabled, Bool.and_eq_true, Bool.not_eq_true', Bool.eq_false_iff, ne_eq, State.runTest_eq_true,
    not_and_or, Bool.not_eq_false, not_lt]

/-- The step of a run whose budget is spent is the run end (R60). -/
theorem step_of_budget_spent {s : State} (hactive : s.active = true) (hsteps : s.steps = 1000) :
    step s = .next s.endRun :=
  step_of_runEnd (State.runEndEnabled_eq_true.mpr ⟨hactive, .inr hsteps.ge⟩)

/-- A run on `n` unassigned bytes from PC, its budget not spent on the way, moves PC by `n`, counts `n` steps, and
changes nothing else. -/
theorem runSteps_unassigned {s : State} {n : Nat} (hactive : s.active = true) (hhalted : s.halted = false)
    (hbudget : s.steps + n ≤ 1000)
    (hbytes : ∀ k < n, (Instr.unassigned (s.memRead (s.pc + BitVec.ofNat 16 k))).wf = true) :
    runSteps n s = .next { s with pc := s.pc + BitVec.ofNat 16 n, steps := s.steps + n } := by
  induction n with
  | zero => rw [BitVec.add_zero]; rfl
  | succ n ih =>
    have hrun := ih (by omega) fun k hk => hbytes k (by omega)
    have hrunning : State.Running { s with pc := s.pc + BitVec.ofNat 16 n, steps := s.steps + n } :=
      ⟨hactive, hhalted, Nat.lt_of_succ_le hbudget⟩
    have hlast := unassignedStep.2 _ hrunning (hbytes n n.lt_succ_self)
    rw [runSteps_add 1 hrun, runSteps_next 0 hlast, BitVec.ofNat_add, ← BitVec.add_assoc]
    rfl

/-- Settles O37: with the budget spent the step is the run end, and 1000 no-op bytes spend it. -/
theorem budgetExhaustionEndsTheRun : Obligations.BudgetExhaustionEndsTheRun := by
  refine ⟨fun s hactive _ hsteps => step_of_budget_spent hactive hsteps, fun s hactive hhalted hsteps hbytes => ?_⟩
  have hrun : runSteps 1000 s = .next { s with pc := s.pc + 1000, steps := 1000 } := by
    rw [runSteps_unassigned hactive hhalted (by omega) fun k hk => hbytes k hk.le, hsteps, Nat.zero_add]
    rfl
  have hend : step { s with pc := s.pc + 1000, steps := 1000 } =
      .next { s with pc := s.pc + 1000, steps := 1000, active := false, mode := .idle } :=
    step_of_budget_spent hactive rfl
  exact ⟨hrun, by rw [runSteps_add 1 hrun, runSteps_next 0 hend]; rfl⟩

end Sys2Proof.Machine
end

section
/-! Proofs about the data transfer instructions of spec/42_data_transfer.md as whole steps, from their bytes in memory
(R66 to R69): the step of a two- and of a three-byte instruction, each instruction's effect, and the four steps. -/

namespace Sys2Proof.Machine

/-! ### The step of a two- and of a three-byte instruction -/

/-- A two-byte instruction runs on the byte after PC, from the state with PC moved by 2 and the step counted (R55). -/
theorem step_of_f2 {s : State} {f : Byte → Instr} (hs : s.Running) (h : entryOf (s.memRead s.pc) = .f2 f) :
    step s = exec (f (s.memRead (s.pc + 1))) { s with pc := s.pc + 2, steps := s.steps + 1 } := by
  rw [step_of_core hs.coreEnabled, State.fetchInstr_of_f2 h]

/-- A three-byte instruction runs on the two bytes after PC, read before its effect writes anything, from the state with
PC moved by 3 and the step counted (R55). -/
theorem step_of_f3 {s : State} {f : Byte → Byte → Instr} (hs : s.Running) (h : entryOf (s.memRead s.pc) = .f3 f) :
    step s = exec (f (s.memRead (s.pc + 1)) (s.memRead (s.pc + 2))) { s with pc := s.pc + 3, steps := s.steps + 1 } := by
  rw [step_of_core hs.coreEnabled, State.fetchInstr_of_f3 h]

/-! ### The entries and the effects -/

theorem entryOf_movAB : entryOf 0x78 = .f1 .movAB := rfl

theorem entryOf_mviA : entryOf 0x3E = .f2 .mviA := rfl

theorem entryOf_mviB : entryOf 0x06 = .f2 .mviB := rfl

theorem entryOf_staA16 : entryOf 0x32 = .f3 fun lo hi => .staA16 (concatBytes hi lo) := rfl

theorem exec_movAB (s : State) : exec .movAB s = .next { s with regA := s.regB } := rfl

theorem exec_mviA (d8 : Byte) (s : State) : exec (.mviA d8) s = .next { s with regA := d8 } := rfl

theorem exec_mviB (d8 : Byte) (s : State) : exec (.mviB d8) s = .next { s with regB := d8 } := rfl

theorem exec_staA16 (a16 : Addr) (s : State) : exec (.staA16 a16) s = .next (s.memWrite a16 s.regA) := rfl

/-! ### The obligations -/

/-- Settles O17: byte 0x78 selects the one-byte MOV A,B, whose effect is the write of B to A. -/
theorem movABStep : Obligations.MovABStep := by
  intro s hs hop
  have hentry : entryOf (s.memRead s.pc) = .f1 .movAB := by rw [hop, entryOf_movAB]
  rw [step_of_f1 hs hentry, exec_movAB]

/-- Settles O18: byte 0x3E selects the two-byte MVI A,d8, whose effect is the write of its operand byte to A. -/
theorem mviAStep : Obligations.MviAStep := by
  intro s hs hop
  have hentry : entryOf (s.memRead s.pc) = .f2 .mviA := by rw [hop, entryOf_mviA]
  rw [step_of_f2 hs hentry, exec_mviA]

/-- Settles O19: byte 0x06 selects the two-byte MVI B,d8, whose effect is the write of its operand byte to B. -/
theorem mviBStep : Obligations.MviBStep := by
  intro s hs hop
  have hentry : entryOf (s.memRead s.pc) = .f2 .mviB := by rw [hop, entryOf_mviB]
  rw [step_of_f2 hs hentry, exec_mviB]

/-- The step of STA: A is stored at the address its operand bytes give, in the state with PC moved by 3 and the step
counted (R69). -/
theorem step_sta {s : State} (hs : s.Running) (hop : s.memRead s.pc = 0x32) :
    step s = .next (State.memWrite { s with pc := s.pc + 3, steps := s.steps + 1 }
      (concatBytes (s.memRead (s.pc + 2)) (s.memRead (s.pc + 1))) s.regA) := by
  have hentry : entryOf (s.memRead s.pc) = .f3 fun lo hi => .staA16 (concatBytes hi lo) := by rw [hop, entryOf_staA16]
  rw [step_of_f3 hs hentry, exec_staA16]

/-- Settles O21: the step is one write of A, and the rules of reading after a write say what each byte becomes. -/
theorem staStep : Obligations.StaStep := by
  intro s hs hop
  refine ⟨_, step_sta hs hop, ?bytes, ?frame⟩
  case bytes =>
    rintro a rfl
    exact ⟨toNat_concatBytes _ _, State.memRead_memWrite_same _ _ _, fun x hx => State.memRead_memWrite_of_ne _ _ hx⟩
  case frame => rfl

end Sys2Proof.Machine
end

section
/-! Proofs about spec/43_arithmetic.md: ADD B as a whole step, from its byte in memory (R70), and that no instruction
writes or reads a flag (R72). -/

namespace Sys2Proof.Machine

/-! ### ADD B -/

/-- The sum of two bytes is modulo 2^8 (R70). -/
theorem toNat_aluAdd (x y : Byte) : (aluAdd x y).toNat = (x.toNat + y.toNat) % 256 :=
  BitVec.toNat_ofNat (x.toNat + y.toNat) 8

theorem entryOf_addB : entryOf 0x80 = .f1 .addB := rfl

theorem exec_addB (s : State) : exec .addB s = .next { s with regA := aluAdd s.regA s.regB } := rfl

/-- Settles O20: byte 0x80 selects the one-byte ADD B, whose effect is the write of the sum to A. -/
theorem addBStep : Obligations.AddBStep := by
  intro s hs hop
  have hentry : entryOf (s.memRead s.pc) = .f1 .addB := by rw [hop, entryOf_addB]
  have hstep : step s = .next { s with regA := aluAdd s.regA s.regB, pc := s.pc + 1, steps := s.steps + 1 } := by
    rw [step_of_f1 hs hentry, exec_addB]
  exact ⟨_, hstep, toNat_aluAdd s.regA s.regB, rfl⟩

/-! ### The flags -/

/-- Each of the effects an instruction can have leaves SP and the flags as they are. -/
theorem exec_keeps_sp_flags {i : Instr} {s t : State} (h : exec i s = .next t) : t.sp = s.sp ∧ t.flags = s.flags := by
  obtain ⟨-, rfl⟩ | ⟨-, rfl⟩ | ⟨d8, -, rfl⟩ | ⟨d8, -, rfl⟩ | ⟨-, rfl⟩ | ⟨a16, -, rfl⟩ | ⟨op, -, rfl⟩ :=
    exec_cases h <;> exact ⟨rfl, rfl⟩

/-- Settles O14: every instruction's effect keeps the flags and commutes with replacing them. -/
theorem noInstructionTouchesFlags : Obligations.NoInstructionTouchesFlags := by
  intro i s f
  obtain ⟨t, hexec⟩ := exec_completes i s
  obtain ⟨hsp, hflags⟩ := exec_keeps_sp_flags hexec
  have hother : exec i (s.withSpFlags s.sp f) = .next (t.withSpFlags t.sp f) := by
    rw [hsp]
    exact exec_withSpFlags hexec s.sp f
  exact ⟨t, hexec, hflags, hother⟩

end Sys2Proof.Machine
end

section
/-! Proofs about the front panel of spec/48_front_panel.md: the events ignored in a mode (R81, R87, R92), a key that
appends its digit (R77, R82), and Next committing the working address (R84). -/

namespace Sys2Proof.Machine

/-! ### The event on the port -/

/-- The event step (R75): the event the port's code stands for, and where the transition table leads with it. -/
theorem step_of_offered {s t : State} {p : PortEvent} {rest : List PortEvent} {e : Event} (hs : s.Offered p rest)
    (hevent : p.event = e) (hpanel : { s with input := rest }.panelStep e = t) : step s = .next t := by
  obtain ⟨hactive, hinput⟩ := hs
  rw [step_of_inactive hactive, acceptEvent_cons hinput, hevent, hpanel]

theorem PortEvent.event_of_code_000 {p : PortEvent} (h : p.code = 0b000) : p.event = .key p.digit := by
  simp [PortEvent.event, h]

theorem PortEvent.event_of_code_011 {p : PortEvent} (h : p.code = 0b011) : p.event = .next := by
  simp [PortEvent.event, h]

theorem PortEvent.event_of_code_100 {p : PortEvent} (h : p.code = 0b100) : p.event = .previous := by
  simp [PortEvent.event, h]

theorem PortEvent.event_of_code_110 {p : PortEvent} (h : p.code = 0b110) : p.event = .execute := by
  simp [PortEvent.event, h]

/-! ### Cells of the transition table (R94) -/

theorem panelStep_key_of_idle {s : State} {d : Digit} (h : s.mode = .idle) : s.panelStep (.key d) = s := by
  simp only [State.panelStep, h, State.panelIgnore]

theorem panelStep_key_of_ne_idle {s : State} {d : Digit} (h : s.mode ≠ .idle) :
    s.panelStep (.key d) = { s with buf := appendDigit s.buf d } := by
  cases hmode : s.mode with
  | idle => exact absurd hmode h
  | addressEntry => simp only [State.panelStep, hmode, State.panelKey]
  | dataEntry => simp only [State.panelStep, hmode, State.panelKey]

theorem panelStep_next_of_addressEntry {s : State} (h : s.mode = .addressEntry) :
    s.panelStep .next = { s with wa := bufAddress s.buf, buf := [], mode := .dataEntry } := by
  simp only [State.panelStep, h, State.panelCommitAddress]

theorem panelStep_previous_of_ne_dataEntry {s : State} (h : s.mode ≠ .dataEntry) : s.panelStep .previous = s := by
  cases hmode : s.mode with
  | idle => simp only [State.panelStep, hmode, State.panelIgnore]
  | addressEntry => simp only [State.panelStep, hmode, State.panelIgnore]
  | dataEntry => exact absurd hmode h

theorem panelStep_execute_of_idle {s : State} (h : s.mode = .idle) : s.panelStep .execute = s := by
  simp only [State.panelStep, h, State.panelIgnore]

/-! ### The buffer -/

/-- What is kept after a key is the newest part of the old buffer and the digit (R77). -/
theorem appendDigit_suffix (buf : List Digit) (d : Digit) : appendDigit buf d <:+ buf ++ [d] :=
  List.drop_suffix _ _

theorem length_appendDigit (buf : List Digit) (d : Digit) :
    (appendDigit buf d).length = min 4 (buf.length + 1) := by
  rw [appendDigit, List.length_drop, List.length_append, List.length_singleton, Config.bufMax]
  omega

theorem bufValue_append_singleton (ds : List Digit) (d : Digit) :
    bufValue (ds ++ [d]) = bufValue ds * 16 + d.toNat := by
  rw [bufValue, List.foldl_append]
  rfl

/-- A digit more is one hexadecimal place more. -/
theorem bufValue_lt (ds : List Digit) : bufValue ds < 16 ^ ds.length := by
  induction ds using List.reverseRecOn with
  | nil => decide
  | append_singleton ds d ih =>
    have hd : d.toNat < 16 := d.isLt
    rw [bufValue_append_singleton, List.length_append, List.length_singleton, Nat.pow_succ]
    omega

/-- Four digits fit an address (R78). -/
theorem bufValue_lt_of_length_le {ds : List Digit} (h : ds.length ≤ 4) : bufValue ds < 2 ^ 16 :=
  calc bufValue ds < 16 ^ ds.length := bufValue_lt ds
    _ ≤ 16 ^ 4 := Nat.pow_le_pow_right (by decide) h
    _ = 2 ^ 16 := by decide

/-- The committed address is the buffer's value, with nothing cut off. -/
theorem toNat_bufAddress {ds : List Digit} (h : ds.length ≤ 4) :
    (bufAddress ds).toNat = if ds = [] then 0 else bufValue ds := by
  cases ds with
  | nil => rfl
  | cons d ds =>
    rw [if_neg (List.cons_ne_nil d ds), bufAddress, BitVec.toNat_ofNat]
    exact Nat.mod_eq_of_lt (bufValue_lt_of_length_le h)

/-! ### The obligations -/

/-- Settles O43: each of the three events meets a cell of the table that leaves the state as the port's read left it. -/
theorem ignoredEventsChangeNothing : Obligations.IgnoredEventsChangeNothing := by
  rintro s p rest hs (⟨hcode, hmode⟩ | ⟨hcode, hmode⟩ | ⟨hcode, hmode⟩)
  · exact step_of_offered hs (PortEvent.event_of_code_000 hcode) (panelStep_key_of_idle hmode)
  · exact step_of_offered hs (PortEvent.event_of_code_100 hcode) (panelStep_previous_of_ne_dataEntry hmode)
  · exact step_of_offered hs (PortEvent.event_of_code_110 hcode) (panelStep_execute_of_idle hmode)

/-- Settles O45: the rule for a key assigns only the buffer, and a suffix of length `min 4` is the last four digits. -/
theorem keyAppendsKeepingLastFour : Obligations.KeyAppendsKeepingLastFour := by
  intro s p rest hs hcode hmode
  have hstep : step s = .next { s with input := rest, buf := appendDigit s.buf p.digit } :=
    step_of_offered hs (PortEvent.event_of_code_000 hcode) (panelStep_key_of_ne_idle hmode)
  exact ⟨_, hstep, appendDigit_suffix s.buf p.digit, length_appendDigit s.buf p.digit, rfl⟩

/-- Settles O47: the rule for Next commits `bufAddress`, which with at most four digits is the buffer's value. -/
theorem nextCommitsWorkingAddress : Obligations.NextCommitsWorkingAddress := by
  intro s p rest hs hcode hmode hlength
  have hstep : step s =
      .next { s with input := rest, wa := bufAddress s.buf, buf := [], mode := .dataEntry } :=
    step_of_offered hs (PortEvent.event_of_code_011 hcode) (panelStep_next_of_addressEntry hmode)
  exact ⟨_, hstep, toNat_bufAddress hlength, rfl⟩

end Sys2Proof.Machine
end

section
/-! Proofs about the exceptions of spec/60_exceptions.md: there are none (R98). -/

namespace Sys2Proof.Machine

/-- Settles O8: an opcode byte with two bytes behind it decodes by its entry's format, every effect and every step
completes, and the type of faults has no constructor. -/
theorem nothingRaisesAnException : Obligations.NothingRaisesAnException := by
  refine ⟨?decodes, exec_completes, fun s _ => step_completes s, fun fault => nomatch fault⟩
  case decodes =>
    intro op b1 b2
    obtain ⟨i, hdecode, -⟩ := decode_takes_entry_length op (rest := [b1, b2]) le_rfl
    exact ⟨i, _, hdecode⟩

end Sys2Proof.Machine
end

section
/-! Proofs about the encoding of spec/30_encoding.md in both directions: decoding what was encoded, and encoding what was
decoded (R39 to R46). -/

namespace Sys2Proof

/-! ### Decoding an encoding -/

/-- An address is its high and its low byte (R40). -/
theorem concatBytes_highByte_lowByte (a : Addr) : concatBytes (highByte a) (lowByte a) = a := by
  rw [concatBytes, highByte, lowByte, BitVec.extractLsb'_append_extractLsb'_eq_extractLsb' (by rfl)]
  exact BitVec.extractLsb'_eq_self

/-- Settles O1: each instruction's opcode byte selects its entry, and the entry's format takes the operand bytes that
follow it. -/
theorem decodeOfEncodeIsIdentity : Obligations.DecodeOfEncodeIsIdentity := by
  intro i hwf rest
  cases i with
  | hlt => exact decode_of_f1 rfl rest
  | movAB => exact decode_of_f1 rfl rest
  | mviA d8 => exact decode_of_f2 rfl d8 rest
  | mviB d8 => exact decode_of_f2 rfl d8 rest
  | addB => exact decode_of_f1 rfl rest
  | staA16 a16 =>
    have hdecode := decode_of_f3 Machine.entryOf_staA16 (lowByte a16) (highByte a16) rest
    rw [concatBytes_highByte_lowByte] at hdecode
    exact hdecode
  | unassigned op => exact decode_of_f1 (Machine.entryOf_unassigned (Instr.wf_unassigned.mp hwf)) rest

/-! ### Encoding what was decoded -/

/-- The entry gives only well-formed instructions that are encoded as the opcode byte `op` and their operand bytes. -/
def Entry.EncodedWith (op : Byte) : Entry → Prop
  | .f1 i => i.wf = true ∧ encode i = [op]
  | .f2 f => ∀ d8, (f d8).wf = true ∧ encode (f d8) = [op, d8]
  | .f3 f => ∀ lo hi, (f lo hi).wf = true ∧ encode (f lo hi) = [op, lo, hi]

theorem lowByte_concatBytes (hi lo : Byte) : lowByte (concatBytes hi lo) = lo := by
  rw [lowByte, concatBytes, BitVec.extractLsb'_append_eq_right]

theorem highByte_concatBytes (hi lo : Byte) : highByte (concatBytes hi lo) = hi := by
  rw [highByte, concatBytes, BitVec.extractLsb'_append_eq_left]

theorem encode_staA16_concatBytes (hi lo : Byte) : encode (.staA16 (concatBytes hi lo)) = [0x32, lo, hi] := by
  rw [encode, lowByte_concatBytes, highByte_concatBytes]

theorem entryOf_encodedWith (op : Byte) : (entryOf op).EncodedWith op := by
  rcases Machine.opcode_cases op with rfl | rfl | rfl | rfl | rfl | rfl | h
  · exact ⟨rfl, rfl⟩
  · exact ⟨rfl, rfl⟩
  · exact fun _ => ⟨rfl, rfl⟩
  · exact fun _ => ⟨rfl, rfl⟩
  · exact ⟨rfl, rfl⟩
  · exact fun lo hi => ⟨rfl, encode_staA16_concatBytes hi lo⟩
  · rw [Machine.entryOf_unassigned h]
    exact ⟨Instr.wf_unassigned.mpr h, rfl⟩

/-- What decoding can answer: the selected entry's instruction with the bytes its format takes. -/
theorem decode_cases {bs rest : List Byte} {i : Instr} (h : decode bs = .ok (i, rest)) :
    ∃ op, (entryOf op = .f1 i ∧ bs = op :: rest) ∨
      (∃ f d8, entryOf op = .f2 f ∧ i = f d8 ∧ bs = op :: d8 :: rest) ∨
      (∃ f lo hi, entryOf op = .f3 f ∧ i = f lo hi ∧ bs = op :: lo :: hi :: rest) := by
  match bs, h with
  | op :: tail, h =>
    refine ⟨op, ?_⟩
    cases hentry : entryOf op with
    | f1 j =>
      rw [decode_of_f1 hentry] at h
      cases h
      exact .inl ⟨rfl, rfl⟩
    | f2 f =>
      match tail, h with
      | [], h => simp [decode, hentry] at h
      | d8 :: tail, h =>
        rw [decode_of_f2 hentry] at h
        cases h
        exact .inr (.inl ⟨f, d8, rfl, rfl, rfl⟩)
    | f3 f =>
      match tail, h with
      | [], h => simp [decode, hentry] at h
      | [_], h => simp [decode, hentry] at h
      | lo :: hi :: tail, h =>
        rw [decode_of_f3 hentry] at h
        cases h
        exact .inr (.inr ⟨f, lo, hi, rfl, rfl, rfl⟩)

/-- Settles O2: the bytes taken are those the selected entry's instruction is encoded with. -/
theorem decodedBytesAreTheEncoding : Obligations.DecodedBytesAreTheEncoding := by
  intro bs rest i h
  obtain ⟨op, hcases⟩ := decode_cases h
  have hencoded := entryOf_encodedWith op
  obtain ⟨hentry, rfl⟩ | ⟨f, d8, hentry, rfl, rfl⟩ | ⟨f, lo, hi, hentry, rfl, rfl⟩ := hcases <;>
    rw [hentry] at hencoded
  · obtain ⟨hwf, hbytes⟩ := hencoded
    exact ⟨hwf, by rw [hbytes]; rfl⟩
  · obtain ⟨hwf, hbytes⟩ := hencoded d8
    exact ⟨hwf, by rw [hbytes]; rfl⟩
  · obtain ⟨hwf, hbytes⟩ := hencoded lo hi
    exact ⟨hwf, by rw [hbytes]; rfl⟩

/-- Settles O5: the eight words, each decoded from its three bytes. -/
theorem tableWordsDecode : Obligations.TableWordsDecode :=
  ⟨rfl, rfl, rfl, rfl, rfl, rfl, rfl, rfl⟩

end Sys2Proof
end

section
/-! Proofs about the instructions' own effects in spec/41_control.md, spec/42_data_transfer.md and spec/43_arithmetic.md
(R64 to R70): what each writes, and its frame. -/

namespace Sys2Proof.Machine

/-! ### The effects -/

theorem exec_hlt (s : State) : exec .hlt s = .next { s with halted := true } := rfl

theorem exec_unassigned (op : Byte) (s : State) : exec (.unassigned op) s = .next s := rfl

/-- Settles O9: HLT's effect is one assignment to `halted`, the fallback's is none. -/
theorem controlInstructionsComplete : Obligations.ControlInstructionsComplete :=
  ⟨exec_hlt, exec_unassigned⟩

/-- Settles O10: each of the three effects is one register write. -/
theorem registerTransfersComplete : Obligations.RegisterTransfersComplete :=
  ⟨exec_movAB, exec_mviA, exec_mviB⟩

/-- Settles O11: the effect is the write of the narrowed sum to A. -/
theorem addBCompletes : Obligations.AddBCompletes :=
  fun s => ⟨_, exec_addB s, toNat_aluAdd s.regA s.regB, rfl⟩

/-- Settles O12: the effect is one write of A to memory, which keeps the canonical form. -/
theorem staCompletesAndFrames : Obligations.StaCompletesAndFrames := fun a16 s =>
  ⟨_, exec_staA16 a16 s, s.memRead_memWrite_same a16 s.regA, fun _ hx => s.memRead_memWrite_of_ne s.regA hx,
    Memory.wf_write a16 s.regA, rfl⟩

/-! ### The frame -/

/-- No effect assigns PC, SP, the flags, a front-panel register, `active`, `steps` or what the host presents. -/
theorem exec_frame {i : Instr} {s t : State} (h : exec i s = .next t) :
    t.pc = s.pc ∧ t.sp = s.sp ∧ t.flags = s.flags ∧ t.mode = s.mode ∧ t.wa = s.wa ∧ t.buf = s.buf ∧
      t.active = s.active ∧ t.steps = s.steps ∧ t.input = s.input := by
  obtain ⟨-, rfl⟩ | ⟨-, rfl⟩ | ⟨d8, -, rfl⟩ | ⟨d8, -, rfl⟩ | ⟨-, rfl⟩ | ⟨a16, -, rfl⟩ | ⟨op, -, rfl⟩ :=
    exec_cases h <;> exact ⟨rfl, rfl, rfl, rfl, rfl, rfl, rfl, rfl, rfl⟩

/-- The effect of an instruction other than STA and HLT is a write of its destination, if it has one. -/
theorem exec_writes_destination {i : Instr} {s t : State} (h : exec i s = .next t) (hsta : ∀ a16, i ≠ .staA16 a16)
    (hhlt : i ≠ .hlt) : (destination i = none ∧ t = s) ∨ ∃ r v, destination i = some r ∧ t = s.writeReg r v := by
  obtain ⟨hi, -⟩ | ⟨rfl, ht⟩ | ⟨d8, rfl, ht⟩ | ⟨d8, rfl, ht⟩ | ⟨rfl, ht⟩ | ⟨a16, hi, -⟩ | ⟨op, rfl, ht⟩ := exec_cases h
  · exact absurd hi hhlt
  · exact .inr ⟨.A, _, rfl, ht⟩
  · exact .inr ⟨.A, _, rfl, ht⟩
  · exact .inr ⟨.B, _, rfl, ht⟩
  · exact .inr ⟨.A, _, rfl, ht⟩
  · exact absurd hi (hsta a16)
  · exact .inl ⟨rfl, ht⟩

theorem exec_keeps_mem {i : Instr} {s t : State} (h : exec i s = .next t) (hsta : ∀ a16, i ≠ .staA16 a16) :
    t.mem = s.mem := by
  by_cases hhlt : i = .hlt
  · subst hhlt; cases h; rfl
  · obtain ⟨-, rfl⟩ | ⟨r, v, -, rfl⟩ := exec_writes_destination h hsta hhlt
    · rfl
    · exact s.writeReg_mem r v

theorem exec_keeps_readReg {i : Instr} {s t : State} (h : exec i s = .next t) (hsta : ∀ a16, i ≠ .staA16 a16) {r : Reg}
    (hr : destination i ≠ some r) : t.readReg r = s.readReg r := by
  by_cases hhlt : i = .hlt
  · subst hhlt; cases h; cases r <;> rfl
  · obtain ⟨-, rfl⟩ | ⟨r', v, hdest, rfl⟩ := exec_writes_destination h hsta hhlt
    · rfl
    · have hne : r ≠ r' := fun he => hr (he ▸ hdest)
      rw [State.readReg_writeReg, if_neg hne]

theorem exec_keeps_halted {i : Instr} {s t : State} (h : exec i s = .next t) (hhlt : i ≠ .hlt) : t.halted = s.halted := by
  obtain ⟨hi, -⟩ | ⟨-, rfl⟩ | ⟨d8, -, rfl⟩ | ⟨d8, -, rfl⟩ | ⟨-, rfl⟩ | ⟨a16, -, rfl⟩ | ⟨op, -, rfl⟩ := exec_cases h
  · exact absurd hi hhlt
  all_goals rfl

/-- Settles O13: the effect of an instruction but STA is `halted` set, or a write of its destination, or nothing. -/
theorem registerInstructionsFrame : Obligations.RegisterInstructionsFrame := by
  intro i s t hsta h
  have hmem := exec_keeps_mem h hsta
  obtain ⟨hpc, hsp, hflags, hmode, hwa, hbuf, hactive, hsteps, hinput⟩ := exec_frame h
  exact ⟨fun x => congrArg (·.read x) hmem, fun r hr => exec_keeps_readReg h hsta hr, hpc, hsp, hflags, hmem, hmode, hwa,
    hbuf, hactive, hsteps, hinput, exec_keeps_halted h⟩

/-! ### SP, the flags, the panel and the run's registers replaced -/

/-- The state with other values of what R104 says no instruction touches. -/
def State.withUntouched (s : State) (sp : Addr) (f : Flags) (m : Mode) (wa : Addr) (buf : List Digit) (act : Bool)
    (n : Nat) : State :=
  { s with sp := sp, flags := f, mode := m, wa := wa, buf := buf, active := act, steps := n }

/-- Each effect commutes with the replacement, so it reads none of the values replaced. -/
theorem exec_withUntouched {i : Instr} {s t : State} (h : exec i s = .next t) (sp : Addr) (f : Flags) (m : Mode)
    (wa : Addr) (buf : List Digit) (act : Bool) (n : Nat) :
    exec i (s.withUntouched sp f m wa buf act n) = .next (t.withUntouched sp f m wa buf act n) := by
  obtain ⟨rfl, rfl⟩ | ⟨rfl, rfl⟩ | ⟨d8, rfl, rfl⟩ | ⟨d8, rfl, rfl⟩ | ⟨rfl, rfl⟩ | ⟨a16, rfl, rfl⟩ | ⟨op, rfl, rfl⟩ :=
    exec_cases h <;> rfl

/-- Settles O15: the frame says that none of these registers is written, the commutation that none is read. -/
theorem noInstructionTouchesPanelOrSp : Obligations.NoInstructionTouchesPanelOrSp := by
  intro i s sp f m wa buf act n
  obtain ⟨t, h⟩ := exec_completes i s
  obtain ⟨-, hsp, hflags, hmode, hwa, hbuf, hactive, hsteps, -⟩ := exec_frame h
  exact ⟨t, h, hsp, hflags, hmode, hwa, hbuf, hactive, hsteps, exec_withUntouched h sp f m wa buf act n⟩

end Sys2Proof.Machine
end

section
/-! Proofs about the step relation of spec/40_execution_loop.md (R55, R56, R63): the three kinds of step, and everything a
step of each kind can do. Later proofs about every step split along `StepMove`. -/

namespace Sys2Proof.Machine

/-! ### The three kinds of step -/

theorem State.coreEnabled_eq_true {s : State} : s.coreEnabled = true ↔ s.Running := by
  rw [State.coreEnabled, Bool.and_eq_true, State.runTest_eq_true]

theorem State.eventEnabled_eq_true {s : State} : s.eventEnabled = true ↔ s.active = false ∧ s.input ≠ [] := by
  rw [State.eventEnabled, Bool.and_eq_true, Bool.not_eq_true', Bool.not_eq_true', List.isEmpty_eq_false_iff]

/-- A run in progress is tested before each step, and one outcome of the test enables each kind of its steps (R53). -/
theorem runEndEnabled_of_not_running {s : State} (hactive : s.active = true) (h : ¬s.Running) : s.runEndEnabled = true := by
  rw [← State.coreEnabled_eq_true, State.coreEnabled, hactive, Bool.true_and, Bool.not_eq_true] at h
  rw [State.runEndEnabled, hactive, h]
  rfl

theorem not_running_of_runEndEnabled {s : State} (h : s.runEndEnabled = true) : ¬s.Running := by
  obtain ⟨-, hend⟩ := State.runEndEnabled_eq_true.mp h
  rintro ⟨-, hhalted, hsteps⟩
  rcases hend with hhalt | hspent
  · rw [hhalted] at hhalt
    cases hhalt
  · omega

theorem not_running_of_inactive {s : State} (h : s.active = false) : ¬s.Running := by
  rintro ⟨hactive, -⟩
  rw [h] at hactive
  cases hactive

theorem active_of_runEndEnabled {s : State} (h : s.runEndEnabled = true) : s.active = true :=
  (State.runEndEnabled_eq_true.mp h).1

/-- Settles O7: a run enables a core step or, its test failed, the run end; without a run only an event enables a step. -/
theorem oneKindOfStepAtATime : Obligations.OneKindOfStepAtATime := by
  intro s
  refine ⟨State.coreEnabled_eq_true, State.runEndEnabled_eq_true, State.eventEnabled_eq_true, ?core_end, ?core_event,
    ?end_event, ?waiting⟩
  case core_end => exact fun ⟨hcore, hend⟩ => not_running_of_runEndEnabled hend (State.coreEnabled_eq_true.mp hcore)
  case core_event =>
    exact fun ⟨hcore, hevent⟩ =>
      not_running_of_inactive (State.eventEnabled_eq_true.mp hevent).1 (State.coreEnabled_eq_true.mp hcore)
  case end_event =>
    exact fun ⟨hend, hevent⟩ =>
      Bool.eq_false_iff.mp (State.eventEnabled_eq_true.mp hevent).1 (active_of_runEndEnabled hend)
  case waiting =>
    intro hcore hend hevent
    rw [Bool.eq_false_iff, ne_eq, State.coreEnabled_eq_true] at hcore
    have hactive : s.active = false :=
      Bool.eq_false_iff.mpr fun ha => Bool.eq_false_iff.mp hend (runEndEnabled_of_not_running ha hcore)
    have hinput : s.input = [] := by
      rw [Bool.eq_false_iff, ne_eq, State.eventEnabled_eq_true, not_and, not_not] at hevent
      exact hevent hactive
    refine ⟨hactive, hinput, ?_⟩
    rw [step_of_inactive hactive, State.acceptEvent, hinput]

/-! ### A core step -/

/-- Settles O6: the fetched instruction is the one the bytes at PC decode to. -/
theorem stepRunsDecodedInstruction : Obligations.StepRunsDecodedInstruction := by
  intro s i rest hs hdecode
  obtain ⟨rest', hfetch⟩ := s.decode_bytesAtPc
  rw [State.bytesAtPc, Addr.add_one_add_one, hdecode, Except.ok.injEq, Prod.mk.injEq] at hfetch
  obtain ⟨rfl, -⟩ := hfetch
  rw [step_of_core hs.coreEnabled, State.fetchInstr_snd]

theorem entryOf_hlt : entryOf 0x76 = .f1 .hlt := rfl

/-- Settles O16: byte 0x76 selects the one-byte HLT, whose effect sets `halted`. -/
theorem hltStep : Obligations.HltStep := by
  intro s hs hop
  have hentry : entryOf (s.memRead s.pc) = .f1 .hlt := by rw [hop, entryOf_hlt]
  rw [step_of_f1 hs hentry, exec_hlt]

/-- Everything a core step can do, by the opcode byte at PC. -/
inductive CoreMove (s t : State) : Prop
  | hlt (hop : s.memRead s.pc = 0x76) (ht : t = { s with halted := true, pc := s.pc + 1, steps := s.steps + 1 })
  | movAB (hop : s.memRead s.pc = 0x78) (ht : t = { s with regA := s.regB, pc := s.pc + 1, steps := s.steps + 1 })
  | mviA (hop : s.memRead s.pc = 0x3E)
      (ht : t = { s with regA := s.memRead (s.pc + 1), pc := s.pc + 2, steps := s.steps + 1 })
  | mviB (hop : s.memRead s.pc = 0x06)
      (ht : t = { s with regB := s.memRead (s.pc + 1), pc := s.pc + 2, steps := s.steps + 1 })
  | addB (hop : s.memRead s.pc = 0x80)
      (ht : t = { s with regA := aluAdd s.regA s.regB, pc := s.pc + 1, steps := s.steps + 1 })
  | sta (hop : s.memRead s.pc = 0x32)
      (ht : t = State.memWrite { s with pc := s.pc + 3, steps := s.steps + 1 }
        (concatBytes (s.memRead (s.pc + 2)) (s.memRead (s.pc + 1))) s.regA)
  | unassigned (hop : assignedOpcodes.contains (s.memRead s.pc) = false)
      (ht : t = { s with pc := s.pc + 1, steps := s.steps + 1 })

theorem step_addB {s : State} (hs : s.Running) (hop : s.memRead s.pc = 0x80) :
    step s = .next { s with regA := aluAdd s.regA s.regB, pc := s.pc + 1, steps := s.steps + 1 } := by
  have hentry : entryOf (s.memRead s.pc) = .f1 .addB := by rw [hop, entryOf_addB]
  rw [step_of_f1 hs hentry, exec_addB]

/-- A core step is one of the seven moves: the whole step of the instruction whose opcode byte stands at PC. -/
theorem coreMove_of_step {s t : State} (hs : s.Running) (h : step s = .next t) : CoreMove s t := by
  have next_eq {u : State} (hu : step s = .next u) : t = u := Host.Outcome.next.inj (h.symm.trans hu)
  obtain hop | hop | hop | hop | hop | hop | hop := opcode_cases (s.memRead s.pc)
  · exact .hlt hop (next_eq (hltStep s hs hop))
  · exact .movAB hop (next_eq (movABStep s hs hop))
  · exact .mviA hop (next_eq (mviAStep s hs hop))
  · exact .mviB hop (next_eq (mviBStep s hs hop))
  · exact .addB hop (next_eq (step_addB hs hop))
  · exact .sta hop (next_eq (step_sta hs hop))
  · exact .unassigned hop (next_eq (unassignedStep.2 s hs (Instr.wf_unassigned.mpr hop)))

/-- What every core step does alike: one step is counted, and SP, the flags, the panel and the port are kept. -/
theorem CoreMove.frame {s t : State} (h : CoreMove s t) :
    t.sp = s.sp ∧ t.flags = s.flags ∧ t.mode = s.mode ∧ t.wa = s.wa ∧ t.buf = s.buf ∧ t.active = s.active ∧
      t.steps = s.steps + 1 ∧ t.input = s.input := by
  obtain ⟨_, rfl⟩ | ⟨_, rfl⟩ | ⟨_, rfl⟩ | ⟨_, rfl⟩ | ⟨_, rfl⟩ | ⟨_, rfl⟩ | ⟨_, rfl⟩ := h <;>
    exact ⟨rfl, rfl, rfl, rfl, rfl, rfl, rfl, rfl⟩

/-- Only STA stores, and a store keeps the canonical form. -/
theorem CoreMove.mem_wf {s t : State} (h : CoreMove s t) (hwf : s.mem.wf = true) : t.mem.wf = true := by
  obtain ⟨_, rfl⟩ | ⟨_, rfl⟩ | ⟨_, rfl⟩ | ⟨_, rfl⟩ | ⟨_, rfl⟩ | ⟨_, rfl⟩ | ⟨_, rfl⟩ := h
  case sta => exact Memory.wf_write _ _ hwf
  all_goals exact hwf

/-! ### An event step -/

/-- Everything the transition table of R94 can do with an event: what it leads to, and for which events and modes. -/
inductive PanelMove (s : State) (e : Event) (t : State) : Prop
  | ignored (hreset : e ≠ .reset) (hexecute : e = .execute → s.mode = .idle) (ht : t = s)
  | reset (he : e = .reset) (ht : t = s.panelReset)
  | key (d : Digit) (he : e = .key d) (hmode : s.mode ≠ .idle) (ht : t = { s with buf := appendDigit s.buf d })
  | enterAddress (he : e = .examineMemory ∨ e = .go) (ht : t = { s with buf := [], mode := .addressEntry })
  | commitAddress (he : e = .next) (hmode : s.mode = .addressEntry)
      (ht : t = { s with wa := bufAddress s.buf, buf := [], mode := .dataEntry })
  | deposit (wa : Addr) (he : e = .next ∧ wa = s.wa + 1 ∨ e = .previous ∧ wa = s.wa - 1) (hmode : s.mode = .dataEntry)
      (ht : t = { s with mem := s.panelDeposit.mem, wa := wa, buf := [] })
  | execute (he : e = .execute) (hmode : s.mode ≠ .idle)
      (ht : t = State.startRun { s with buf := [] } (if s.mode = .addressEntry then bufAddress s.buf else s.wa))

theorem panelStep_examineMemory (s : State) : s.panelStep .examineMemory = { s with buf := [], mode := .addressEntry } := by
  unfold State.panelStep
  cases s.mode <;> rfl

theorem panelStep_go (s : State) : s.panelStep .go = { s with buf := [], mode := .addressEntry } := by
  unfold State.panelStep
  cases s.mode <;> rfl

theorem panelStep_reserved (s : State) : s.panelStep .reserved = s := by
  unfold State.panelStep
  cases s.mode <;> rfl

theorem panelStep_next_of_idle {s : State} (h : s.mode = .idle) : s.panelStep .next = s := by
  simp only [State.panelStep, h, State.panelIgnore]

/-- A deposit assigns memory alone; the working address and the buffer follow. -/
theorem State.panelDepositNext_eq (s : State) :
    s.panelDepositNext = { s with mem := s.panelDeposit.mem, wa := s.wa + 1, buf := [] } := by
  simp [State.panelDepositNext]

theorem State.panelDepositPrevious_eq (s : State) :
    s.panelDepositPrevious = { s with mem := s.panelDeposit.mem, wa := s.wa - 1, buf := [] } := by
  simp [State.panelDepositPrevious]

theorem panelStep_next_of_dataEntry {s : State} (h : s.mode = .dataEntry) :
    s.panelStep .next = { s with mem := s.panelDeposit.mem, wa := s.wa + 1, buf := [] } := by
  have hcell : s.panelStep .next = s.panelDepositNext := by simp only [State.panelStep, h]
  rw [hcell, s.panelDepositNext_eq]

theorem panelStep_previous_of_dataEntry {s : State} (h : s.mode = .dataEntry) :
    s.panelStep .previous = { s with mem := s.panelDeposit.mem, wa := s.wa - 1, buf := [] } := by
  have hcell : s.panelStep .previous = s.panelDepositPrevious := by simp only [State.panelStep, h]
  rw [hcell, s.panelDepositPrevious_eq]

theorem panelStep_execute_of_ne_idle {s : State} (h : s.mode ≠ .idle) :
    s.panelStep .execute =
      State.startRun { s with buf := [] } (if s.mode = .addressEntry then bufAddress s.buf else s.wa) := by
  cases hmode : s.mode with
  | idle => exact absurd hmode h
  | addressEntry => simp only [State.panelStep, hmode, State.panelExecuteBuffer, if_pos]
  | dataEntry => simp only [State.panelStep, hmode, State.panelExecuteWorking, reduceCtorEq, if_false]

/-- The transition table is these moves and no other. -/
theorem panelMove_panelStep (s : State) (e : Event) : PanelMove s e (s.panelStep e) := by
  cases e with
  | key d =>
    by_cases hmode : s.mode = .idle
    · exact .ignored nofun nofun (panelStep_key_of_idle hmode)
    · exact .key d rfl hmode (panelStep_key_of_ne_idle hmode)
  | reset => exact .reset rfl (panelStep_reset s)
  | examineMemory => exact .enterAddress (.inl rfl) (panelStep_examineMemory s)
  | next =>
    cases hmode : s.mode with
    | idle => exact .ignored nofun nofun (panelStep_next_of_idle hmode)
    | addressEntry => exact .commitAddress rfl hmode (panelStep_next_of_addressEntry hmode)
    | dataEntry => exact .deposit (s.wa + 1) (.inl ⟨rfl, rfl⟩) hmode (panelStep_next_of_dataEntry hmode)
  | previous =>
    by_cases hmode : s.mode = .dataEntry
    · exact .deposit (s.wa - 1) (.inr ⟨rfl, rfl⟩) hmode (panelStep_previous_of_dataEntry hmode)
    · exact .ignored nofun nofun (panelStep_previous_of_ne_dataEntry hmode)
  | go => exact .enterAddress (.inr rfl) (panelStep_go s)
  | execute =>
    by_cases hmode : s.mode = .idle
    · exact .ignored nofun (fun _ => hmode) (panelStep_execute_of_idle hmode)
    · exact .execute rfl hmode (panelStep_execute_of_ne_idle hmode)
  | reserved => exact .ignored nofun nofun (panelStep_reserved s)

/-! ### Every step -/

/-- Everything a step can do: one move of the kind of step enabled, or waiting. -/
inductive StepMove (s t : State) : Prop
  | core (hs : s.Running) (hmove : CoreMove s t)
  | runEnd (hs : s.runEndEnabled = true) (ht : t = s.endRun)
  | waiting (hactive : s.active = false) (hinput : s.input = []) (ht : t = s)
  | event (p : PortEvent) (rest : List PortEvent) (hs : s.Offered p rest)
      (hmove : PanelMove { s with input := rest } p.event t)

theorem stepMove_of_step {s t : State} (h : step s = .next t) : StepMove s t := by
  obtain ⟨hcore, -⟩ | ⟨hend, ht⟩ | ⟨hactive, hinput, ht⟩ | ⟨hactive, p, rest, hinput, ht⟩ := step_cases h
  · have hs := State.coreEnabled_eq_true.mp hcore
    exact .core hs (coreMove_of_step hs h)
  · exact .runEnd hend ht
  · exact .waiting hactive hinput ht
  · exact .event p rest ⟨hactive, hinput⟩ (ht ▸ panelMove_panelStep _ _)

end Sys2Proof.Machine
end

section
/-! Proofs about what every step keeps of spec/10_state.md: which steps write a general register (R12), and the invariant
of every state the block can be in (R12, R15, R16, R20, R21). -/

namespace Sys2Proof.Machine

/-! ### The general registers -/

theorem accepts_of_offered {s : State} {p : PortEvent} {rest : List PortEvent} {e : Event} (hs : s.Offered p rest)
    (he : p.event = e) : s.accepts e :=
  ⟨hs.1, p, rest, hs.2, he⟩

/-- No rule of the transition table but Reset's writes a general register. -/
theorem PanelMove.keeps_readReg {s t : State} {e : Event} (h : PanelMove s e t) (he : e ≠ .reset) (r : Reg) :
    t.readReg r = s.readReg r := by
  cases h with
  | ignored _ _ ht => rw [ht]
  | reset hreset _ => exact absurd hreset he
  | key d _ _ ht => rw [ht]; cases r <;> rfl
  | enterAddress _ ht => rw [ht]; cases r <;> rfl
  | commitAddress _ _ ht => rw [ht]; cases r <;> rfl
  | deposit wa _ _ ht => rw [ht]; cases r <;> rfl
  | execute _ _ ht => rw [ht]; cases r <;> rfl

/-- A step that accepts no Reset is a core step, or it keeps every general register. -/
theorem core_or_keeps_readReg {s t : State} (h : step s = .next t) (hr : ¬s.accepts .reset) :
    (s.Running ∧ CoreMove s t) ∨ ∀ r, t.readReg r = s.readReg r := by
  cases stepMove_of_step h with
  | core hs hmove => exact .inl ⟨hs, hmove⟩
  | runEnd _ ht => rw [ht]; exact .inr fun r => by cases r <;> rfl
  | waiting _ _ ht => rw [ht]; exact .inr fun _ => rfl
  | event p rest hs hmove =>
    refine .inr fun r => ?_
    rw [hmove.keeps_readReg (fun he => hr (accepts_of_offered hs he))]
    cases r <;> rfl

/-- Settles O30: the core steps are the only ones that write a general register, and each instruction writes at most A
or B. -/
theorem generalRegisterWriters : Obligations.GeneralRegisterWriters := by
  intro s t h hr
  obtain ⟨hs, hmove⟩ | hkeeps := core_or_keeps_readReg h hr
  · obtain ⟨hop, rfl⟩ | ⟨hop, rfl⟩ | ⟨hop, rfl⟩ | ⟨hop, rfl⟩ | ⟨hop, rfl⟩ | ⟨hop, rfl⟩ | ⟨hop, rfl⟩ := hmove
    case movAB => exact ⟨fun _ => ⟨hs, .inl hop⟩, absurd rfl, rfl, rfl, rfl, rfl, rfl⟩
    case mviA => exact ⟨fun _ => ⟨hs, .inr (.inl hop)⟩, absurd rfl, rfl, rfl, rfl, rfl, rfl⟩
    case mviB => exact ⟨absurd rfl, fun _ => ⟨hs, hop⟩, rfl, rfl, rfl, rfl, rfl⟩
    case addB => exact ⟨fun _ => ⟨hs, .inr (.inr hop)⟩, absurd rfl, rfl, rfl, rfl, rfl, rfl⟩
    all_goals exact ⟨absurd rfl, absurd rfl, rfl, rfl, rfl, rfl, rfl⟩
  · exact ⟨absurd (hkeeps .A), absurd (hkeeps .B), hkeeps .C, hkeeps .D, hkeeps .E, hkeeps .H, hkeeps .L⟩

/-! ### The invariant, by the kind of step -/

/-- The power-on state has the invariant, whatever the memory it starts with and whatever the host presents. -/
theorem inv_powerOn {m : Memory} (hm : m.wf = true) (q : List PortEvent) :
    State.Inv { State.powerOn m with input := q } :=
  ⟨hm, Nat.zero_le _, Nat.zero_le _, nofun, fun _ => rfl, nofun⟩

theorem CoreMove.keeps_inv {s t : State} (h : CoreMove s t) (hs : s.Running) (hinv : s.Inv) : t.Inv := by
  obtain ⟨hwf, hbuf, -, hrun, hidle, -⟩ := hinv
  obtain ⟨-, -, hmode, -, hbuf', hactive, hsteps, -⟩ := h.frame
  obtain ⟨-, -, hbudget⟩ := hs
  refine ⟨h.mem_wf hwf, hbuf' ▸ hbuf, ?steps, ?run, ?idle, ?halted⟩
  case steps => rw [hsteps]; exact hbudget
  case run => rw [hactive, hmode, hbuf']; exact hrun
  case idle => rw [hmode, hbuf']; exact hidle
  case halted => rw [hsteps]; exact fun _ => Nat.succ_pos s.steps

/-- A run ends with the empty buffer it began with. -/
theorem endRun_keeps_inv {s : State} (hactive : s.active = true) (hinv : s.Inv) : s.endRun.Inv := by
  obtain ⟨hwf, hbuf, hsteps, hrun, -, hhalted⟩ := hinv
  exact ⟨hwf, hbuf, hsteps, nofun, fun _ => (hrun hactive).2, hhalted⟩

theorem State.panelDeposit_wf {s : State} (hwf : s.mem.wf = true) : s.panelDeposit.mem.wf = true := by
  rw [State.panelDeposit_mem]
  split_ifs
  · exact hwf
  · exact Memory.wf_write _ _ hwf

/-- The transition table keeps the invariant; no run is in progress when it applies. -/
theorem PanelMove.keeps_inv {s t : State} {e : Event} (h : PanelMove s e t) (hactive : s.active = false)
    (hinv : s.Inv) : t.Inv := by
  obtain ⟨hwf, hbuf, hsteps, -, hidle, hhalted⟩ := id hinv
  have hno_run : s.active = true → t.mode ≠ .idle ∧ t.buf = [] := fun ha => by rw [hactive] at ha; cases ha
  cases h with
  | ignored _ _ ht => exact ht ▸ hinv
  | reset _ ht => exact ht ▸ inv_powerOn hwf s.input
  | key d _ hmode ht =>
    subst ht
    have hlength : (appendDigit s.buf d).length ≤ 4 := by rw [length_appendDigit]; exact min_le_left _ _
    exact ⟨hwf, hlength, hsteps, hno_run, fun hi => absurd hi hmode, hhalted⟩
  | enterAddress _ ht => subst ht; exact ⟨hwf, Nat.zero_le _, hsteps, hno_run, nofun, hhalted⟩
  | commitAddress _ _ ht => subst ht; exact ⟨hwf, Nat.zero_le _, hsteps, hno_run, nofun, hhalted⟩
  | deposit wa _ hmode ht =>
    subst ht
    exact ⟨State.panelDeposit_wf hwf, Nat.zero_le _, hsteps, hno_run, fun _ => rfl, hhalted⟩
  | execute _ hmode ht => subst ht; exact ⟨hwf, Nat.zero_le _, Nat.zero_le _, fun _ => ⟨hmode, rfl⟩, fun _ => rfl, nofun⟩

/-! ### Every step, and every reachable state -/

/-- The invariant does not speak of what the host presents. -/
theorem inv_withInput {s : State} (hinv : s.Inv) (q : List PortEvent) : State.Inv { s with input := q } := hinv

/-- Settles O57: each kind of step keeps the invariant. -/
theorem stepKeepsInv : Obligations.StepKeepsInv := by
  intro s t hinv h
  cases stepMove_of_step h with
  | core hs hmove => exact hmove.keeps_inv hs hinv
  | runEnd hs ht => exact ht ▸ endRun_keeps_inv (active_of_runEndEnabled hs) hinv
  | waiting _ _ ht => exact ht ▸ hinv
  | event p rest hs hmove => exact hmove.keeps_inv hs.1 (inv_withInput hinv rest)

theorem unusedAtReset_powerOn (m : Memory) : (State.powerOn m).UnusedAtReset :=
  ⟨rfl, rfl, rfl, rfl, rfl, rfl, rfl⟩

/-- Settles O56: the power-on state has an empty buffer, no run and no counted step. -/
theorem powerOnSatisfiesInv : Obligations.PowerOnSatisfiesInv :=
  ⟨fun m hm => ⟨inv_powerOn hm [], unusedAtReset_powerOn m⟩, inv_powerOn Memory.wf_nil [], unusedAtReset_powerOn []⟩

/-- Reset assigns the unused registers and the flags their reset values, and no other step writes them. -/
theorem step_keeps_unusedAtReset {s t : State} (h : step s = .next t) (hs : s.UnusedAtReset) : t.UnusedAtReset := by
  by_cases hr : s.accepts .reset
  · obtain ⟨t', hstep, hregs, hsp, hflags⟩ := step_of_accepts_reset hr
    obtain rfl : t' = t := Host.Outcome.next.inj (hstep.symm.trans h)
    exact ⟨hregs .C, hregs .D, hregs .E, hregs .H, hregs .L, hsp, hflags⟩
  · obtain ⟨-, -, hC, hD, hE, hH, hL⟩ := generalRegisterWriters s t h hr
    obtain ⟨hsp, hflags⟩ := step_keeps_sp_flags h hr
    unfold State.UnusedAtReset
    rw [hC, hD, hE, hH, hL, hsp, hflags]
    exact hs

/-- Settles O58: induction on how the state was reached. -/
theorem reachableStatesAreGood : Obligations.ReachableStatesAreGood := by
  intro s hreach
  suffices hgood : s.Inv ∧ s.UnusedAtReset from ⟨hgood.1, hgood.2, step_completes s⟩
  induction hreach with
  | powerOn m hm => exact powerOnSatisfiesInv.1 m hm
  | present s e _ ih => exact ⟨inv_withInput ih.1 _, ih.2⟩
  | step s t _ hstep ih => exact ⟨stepKeepsInv s t ih.1 hstep, step_keeps_unusedAtReset hstep ih.2⟩

end Sys2Proof.Machine
end

section
/-! Proofs about the memory of spec/10_state.md R17 and spec/20_memory.md: every array is one memory in canonical form, and
which steps change a byte (R26, R37). -/

namespace Sys2Proof.Machine

/-! ### Arrays and memories -/

/-- The memory that holds an array's first `n` bytes, built by writing them one after another. -/
theorem exists_memory_below (f : Addr → Byte) (n : Nat) (hn : n ≤ 65536) :
    ∃ m : Memory, m.wf = true ∧ ∀ a : Addr, m.read a = if a.toNat < n then f a else Config.unlistedByte := by
  induction n with
  | zero => exact ⟨[], Memory.wf_nil, fun a => (if_neg (Nat.not_lt_zero _)).symm⟩
  | succ n ih =>
    obtain ⟨m, hwf, hread⟩ := ih (by omega)
    have hval : (BitVec.ofNat 16 n).toNat = n := Nat.mod_eq_of_lt hn
    refine ⟨m.write (BitVec.ofNat 16 n) (f (BitVec.ofNat 16 n)), Memory.wf_write _ _ hwf, fun a => ?_⟩
    rw [Memory.read_write, hread]
    by_cases ha : a = BitVec.ofNat 16 n
    · rw [if_pos ha, ha, hval, if_pos n.lt_succ_self]
    · have hne : a.toNat ≠ n := fun he => ha (BitVec.eq_of_toNat_eq (he.trans hval.symm))
      have hlt : a.toNat < n ↔ a.toNat < n + 1 := by omega
      rw [if_neg ha]
      exact if_congr hlt rfl rfl

theorem Memory.read_cons_self {k : Nat} (hk : k < 65536) (v : Byte) (m : Memory) :
    Memory.read ((k, v) :: m) (BitVec.ofNat 16 k) = v := by
  have hval : (BitVec.ofNat 16 k).toNat = k := Nat.mod_eq_of_lt hk
  rw [Memory.read, if_pos hval.symm]

/-- Below the first listed address nothing is listed. -/
theorem Memory.read_of_lt {lo : Nat} {m : Memory} (hwf : Memory.wfFrom lo m = true) {a : Addr} (ha : a.toNat < lo) :
    m.read a = Config.unlistedByte := by
  induction m generalizing lo with
  | nil => rfl
  | cons c rest ih =>
    obtain ⟨k, v⟩ := c
    obtain ⟨hlo, -, -, hrest⟩ := Memory.wfFrom_cons.mp hwf
    rw [Memory.read, if_neg (by omega)]
    exact ih hrest (by omega)

/-- Of two canonical memories that read the same, neither begins above the other: at the lower beginning the other would
list nothing. -/
theorem Memory.head_le_of_read_eq {lo k k' : Nat} {v v' : Byte} {rest rest' : Memory}
    (hwf : Memory.wfFrom lo ((k, v) :: rest) = true) (hwf' : Memory.wfFrom lo ((k', v') :: rest') = true)
    (hread : ∀ a, Memory.read ((k, v) :: rest) a = Memory.read ((k', v') :: rest') a) : k' ≤ k := by
  obtain ⟨-, hk, hv, -⟩ := Memory.wfFrom_cons.mp hwf
  obtain ⟨-, hk', hv', hrest'⟩ := Memory.wfFrom_cons.mp hwf'
  by_contra hlt
  have hwf'' : Memory.wfFrom k' ((k', v') :: rest') = true := Memory.wfFrom_cons.mpr ⟨le_rfl, hk', hv', hrest'⟩
  have hval : (BitVec.ofNat 16 k).toNat < k' := by
    rw [BitVec.toNat_ofNat, Nat.mod_eq_of_lt hk]
    omega
  rw [← Memory.read_cons_self hk v rest, hread, Memory.read_of_lt hwf'' hval] at hv
  exact hv rfl

theorem Memory.not_read_cons_eq_nil {lo k : Nat} {v : Byte} {rest : Memory}
    (hwf : Memory.wfFrom lo ((k, v) :: rest) = true) : ¬∀ a, Memory.read ((k, v) :: rest) a = Memory.read [] a := by
  intro hread
  obtain ⟨-, hk, hv, -⟩ := Memory.wfFrom_cons.mp hwf
  rw [← Memory.read_cons_self hk v rest, hread] at hv
  exact hv rfl

/-- Canonical memories that read the same are the same list: their first entries agree, and behind them they still read
the same. -/
theorem Memory.eq_of_read_eq {lo : Nat} {m m' : Memory} (hwf : Memory.wfFrom lo m = true)
    (hwf' : Memory.wfFrom lo m' = true) (hread : ∀ a, m.read a = m'.read a) : m = m' := by
  induction m generalizing lo m' with
  | nil =>
    cases m' with
    | nil => rfl
    | cons c' rest' => exact absurd (fun a => (hread a).symm) (Memory.not_read_cons_eq_nil hwf')
  | cons c rest ih =>
    cases m' with
    | nil => exact absurd hread (Memory.not_read_cons_eq_nil hwf)
    | cons c' rest' =>
      obtain ⟨k, v⟩ := c
      obtain ⟨k', v'⟩ := c'
      obtain rfl : k' = k := le_antisymm (Memory.head_le_of_read_eq hwf hwf' hread)
        (Memory.head_le_of_read_eq hwf' hwf fun a => (hread a).symm)
      obtain ⟨-, hk, -, hrest⟩ := Memory.wfFrom_cons.mp hwf
      obtain ⟨-, -, -, hrest'⟩ := Memory.wfFrom_cons.mp hwf'
      obtain rfl : v' = v := by rw [← Memory.read_cons_self hk v' rest', ← hread, Memory.read_cons_self hk]
      have htail : ∀ a, Memory.read rest a = Memory.read rest' a := by
        intro a
        by_cases ha : k' = a.toNat
        · rw [Memory.read_of_lt hrest (by omega), Memory.read_of_lt hrest' (by omega)]
        · simpa only [Memory.read, if_neg ha] using hread a
      rw [ih hrest hrest' htail]

/-- Settles O24: existence by writing the bytes one after another, uniqueness because a canonical list is read off its
memory entry by entry. -/
theorem everyArrayIsOneMemory : Obligations.EveryArrayIsOneMemory := by
  intro f
  obtain ⟨m, hwf, hread⟩ := exists_memory_below f 65536 le_rfl
  have hall : ∀ a, m.read a = f a := fun a => (hread a).trans (if_pos a.isLt)
  exact ⟨m, ⟨hwf, hall⟩, fun m' hwf' hread' => Memory.eq_of_read_eq hwf' hwf fun a => (hread' a).trans (hall a).symm⟩

/-! ### Which steps change a byte -/

/-- Only STA stores in a core step, and only at its own address. -/
theorem CoreMove.sta_of_memRead_ne {s t : State} (h : CoreMove s t) {x : Addr} (hx : t.memRead x ≠ s.memRead x) :
    s.memRead s.pc = 0x32 ∧ x = concatBytes (s.memRead (s.pc + 2)) (s.memRead (s.pc + 1)) ∧ t.memRead x = s.regA := by
  obtain ⟨_, rfl⟩ | ⟨_, rfl⟩ | ⟨_, rfl⟩ | ⟨_, rfl⟩ | ⟨_, rfl⟩ | ⟨hop, rfl⟩ | ⟨_, rfl⟩ := h
  case sta =>
    by_cases hxa : x = concatBytes (s.memRead (s.pc + 2)) (s.memRead (s.pc + 1))
    · subst hxa
      exact ⟨hop, rfl, State.memRead_memWrite_same _ _ _⟩
    · exact absurd (State.memRead_memWrite_of_ne _ _ hxa) hx
  all_goals exact absurd rfl hx

/-- Only a deposit stores in an event step, and only at the working address. -/
theorem PanelMove.deposit_of_memRead_ne {s t : State} {e : Event} (h : PanelMove s e t) {x : Addr}
    (hx : t.memRead x ≠ s.memRead x) :
    (e = .next ∨ e = .previous) ∧ s.mode = .dataEntry ∧ s.buf ≠ [] ∧ x = s.wa ∧ t.memRead x = bufByte s.buf := by
  cases h with
  | deposit wa he hmode ht =>
    have hread : t.memRead x = if s.buf ≠ [] ∧ x = s.wa then bufByte s.buf else s.memRead x := by
      rw [ht]
      exact s.panelDeposit_memRead x
    by_cases hdeposit : s.buf ≠ [] ∧ x = s.wa
    · rw [if_pos hdeposit] at hread
      exact ⟨he.imp And.left And.left, hmode, hdeposit.1, hdeposit.2, hread⟩
    · rw [if_neg hdeposit] at hread
      exact absurd hread hx
  | ignored _ _ ht => subst ht; exact absurd rfl hx
  | reset _ ht => subst ht; exact absurd rfl hx
  | key d _ _ ht => subst ht; exact absurd rfl hx
  | enterAddress _ ht => subst ht; exact absurd rfl hx
  | commitAddress _ _ ht => subst ht; exact absurd rfl hx
  | execute _ _ ht => subst ht; exact absurd rfl hx

/-- Settles O25: the run end and a waiting block keep memory, and the other two kinds of step have one writer each. -/
theorem onlyStaAndDepositsChangeMemory : Obligations.OnlyStaAndDepositsChangeMemory := by
  intro s t x h hx
  cases stepMove_of_step h with
  | core hs hmove => exact .inl ⟨hs, hmove.sta_of_memRead_ne hx⟩
  | runEnd _ ht => subst ht; exact absurd rfl hx
  | waiting _ _ ht => subst ht; exact absurd rfl hx
  | event p rest hs hmove =>
    obtain ⟨he, hdeposit⟩ := hmove.deposit_of_memRead_ne hx
    exact .inr ⟨he.imp (accepts_of_offered hs) (accepts_of_offered hs), hdeposit⟩

/-! ### The byte after an STA -/

/-- Settles O26: the store is done when the next fetch begins, so that fetch reads A, then the two bytes after it, which
the store left alone. -/
theorem storedOpcodeIsExecutedNext : Obligations.StoredOpcodeIsExecutedNext := by
  intro s hs hbudget hop htarget
  obtain ⟨hactive, hhalted, -⟩ := id hs
  have hstep := step_sta hs hop
  rw [htarget] at hstep
  generalize ht : State.memWrite { s with pc := s.pc + 3, steps := s.steps + 1 } (s.pc + 3) s.regA = t at hstep
  have hpc : t.pc = s.pc + 3 := by rw [← ht]; rfl
  have hrunning : t.Running := by rw [← ht]; exact ⟨hactive, hhalted, hbudget⟩
  have hplanted : t.memRead t.pc = s.regA := by
    rw [hpc, ← ht]
    exact State.memRead_memWrite_same _ _ _
  have hkept {x : Addr} (hx : x ≠ s.pc + 3) : t.memRead x = s.memRead x := by
    rw [← ht]
    exact State.memRead_memWrite_of_ne _ _ hx
  obtain ⟨rest, hdecode⟩ := t.decode_bytesAtPc
  have hpc1 : t.pc + 1 = s.pc + 4 := by rw [hpc, BitVec.add_assoc]; rfl
  have hpc2 : t.pc + 1 + 1 = s.pc + 5 := by rw [hpc1, BitVec.add_assoc]; rfl
  have hkept4 : t.memRead (s.pc + 4) = s.memRead (s.pc + 4) := hkept ((add_right_injective s.pc).ne (by decide))
  have hkept5 : t.memRead (s.pc + 5) = s.memRead (s.pc + 5) := hkept ((add_right_injective s.pc).ne (by decide))
  rw [State.bytesAtPc, hplanted, hpc2, hpc1, hkept4, hkept5] at hdecode
  refine ⟨t, t.fetchInstr.1, rest, hstep, hpc, hrunning.2.1, hplanted, hdecode, ?next, ?halt⟩
  case next => rw [step_of_core hrunning.coreEnabled, State.fetchInstr_snd]
  case halt => exact fun hA => ⟨_, hltStep t hrunning (hplanted.trans hA), rfl, hpc1⟩

end Sys2Proof.Machine
end

section
/-! Proofs about PC and the fetching of bytes: what moves PC (spec/10_state.md R14), and that one run fetches no address
twice (spec/40_execution_loop.md R62, spec/70_reset_and_hazards.md R118). -/

namespace Sys2Proof.Machine

/-! ### What moves PC -/

/-- A core step moves PC past the bytes of its instruction, whose opcode byte decides how many there are (R39). -/
theorem CoreMove.pc_eq {s t : State} (h : CoreMove s t) :
    t.pc = s.pc +
      (if s.memRead s.pc = 0x3E ∨ s.memRead s.pc = 0x06 then 2 else if s.memRead s.pc = 0x32 then 3 else 1) := by
  obtain ⟨hop, rfl⟩ | ⟨hop, rfl⟩ | ⟨hop, rfl⟩ | ⟨hop, rfl⟩ | ⟨hop, rfl⟩ | ⟨hop, rfl⟩ | ⟨hop, rfl⟩ := h
  case unassigned =>
    obtain ⟨-, -, h3E, h06, -, h32⟩ := (not_assigned_iff _).mp hop
    rw [if_neg (not_or.mpr ⟨h3E, h06⟩), if_neg h32]
  all_goals rw [hop]; rfl

/-- Of the transition table's rules, only Reset's and a run start move PC. -/
theorem PanelMove.keeps_pc {s t : State} {e : Event} (h : PanelMove s e t) (hreset : e ≠ .reset)
    (hexecute : ¬(e = .execute ∧ s.mode ≠ .idle)) : t.pc = s.pc := by
  cases h with
  | ignored _ _ ht => rw [ht]
  | reset he _ => exact absurd he hreset
  | key d _ _ ht => rw [ht]
  | enterAddress _ ht => rw [ht]
  | commitAddress _ _ ht => rw [ht]
  | deposit wa _ _ ht => rw [ht]
  | execute he hmode _ => exact absurd ⟨he, hmode⟩ hexecute

/-- An accepted Execute outside Idle starts the run at the buffer's address or at the working address (R90, R91). -/
theorem pc_of_accepts_execute {s t : State} (h : step s = .next t) (hs : s.accepts .execute) (hmode : s.mode ≠ .idle) :
    t.pc = if s.mode = .addressEntry then bufAddress s.buf else s.wa := by
  obtain ⟨rest, hstep⟩ := step_of_accepts hs
  rw [panelStep_execute_of_ne_idle (s := { s with input := rest }) hmode, h] at hstep
  rw [Host.Outcome.next.inj hstep]
  rfl

theorem pc_of_accepts_reset {s t : State} (h : step s = .next t) (hs : s.accepts .reset) : t.pc = 0x0000 := by
  obtain ⟨rest, hstep⟩ := step_of_accepts hs
  rw [panelStep_reset, h] at hstep
  rw [Host.Outcome.next.inj hstep]
  rfl

/-- Settles O28: the fetch of a core step, the start address of a run start, Reset's 0x0000, and no other move. -/
theorem pcMovesOnlyByFetchStartAndReset : Obligations.PcMovesOnlyByFetchStartAndReset := by
  intro s t h
  refine ⟨?core, ?addressEntry, ?dataEntry, pc_of_accepts_reset h, ?other⟩
  case core => exact fun hs => (coreMove_of_step hs h).pc_eq
  case addressEntry =>
    intro hs hmode
    rw [pc_of_accepts_execute h hs (by rw [hmode]; decide), if_pos hmode]
  case dataEntry =>
    intro hs hmode
    rw [pc_of_accepts_execute h hs (by rw [hmode]; decide), if_neg (by rw [hmode]; decide)]
  case other =>
    intro hcore hexecute hreset
    cases stepMove_of_step h with
    | core hs _ => exact absurd hs hcore
    | runEnd _ ht => rw [ht, State.endRun_pc]
    | waiting _ _ ht => rw [ht]
    | event p rest hs hmove =>
      exact hmove.keeps_pc (fun he => hreset (accepts_of_offered hs he))
        fun ⟨he, hmode⟩ => hexecute ⟨accepts_of_offered hs he, hmode⟩

/-! ### The addresses a run fetches -/

/-- `n` addresses in ascending order from `pc` on, wrapping at the top of memory. -/
def addrsFrom (pc : Addr) (n : Nat) : List Addr := (List.range n).map fun k => pc + BitVec.ofNat 16 k

theorem addrsFrom_add (pc : Addr) (m n : Nat) :
    addrsFrom pc (m + n) = addrsFrom pc m ++ addrsFrom (pc + BitVec.ofNat 16 m) n := by
  simp only [addrsFrom, List.range_add, List.map_append, List.map_map, Function.comp_def, BitVec.ofNat_add,
    BitVec.add_assoc]

/-- Up to once around the memory, ascending addresses do not repeat. -/
theorem addrsFrom_nodup (pc : Addr) {n : Nat} (hn : n ≤ 65536) : (addrsFrom pc n).Nodup := by
  refine List.nodup_range.map_on fun j hj k hk hjk => ?_
  have hval := congrArg BitVec.toNat (add_right_injective pc hjk)
  rw [List.mem_range] at hj hk
  rwa [BitVec.toNat_ofNat, BitVec.toNat_ofNat, Nat.mod_eq_of_lt (by omega), Nat.mod_eq_of_lt (by omega)] at hval

theorem State.fetchAddrs_eq (s : State) : s.fetchAddrs = addrsFrom s.pc s.fetchInstr.1.length := rfl

theorem instr_length_le_three (i : Instr) : i.length ≤ 3 := by
  cases i <;> simp only [Instr.length, Nat.reduceLeDiff]

/-- A core step completes, with PC on the first byte it did not fetch and the step counted. -/
theorem coreStep_completes (s : State) :
    ∃ t, coreStep s = .next t ∧ t.pc = s.pc + BitVec.ofNat 16 s.fetchInstr.1.length ∧ t.steps = s.steps + 1 ∧
      t.active = s.active := by
  obtain ⟨t, h⟩ := exec_completes s.fetchInstr.1 s.fetchInstr.2
  obtain ⟨hpc, -, -, -, -, -, hactive, hsteps, -⟩ := exec_frame h
  rw [State.fetchInstr_snd] at hpc hsteps hactive
  exact ⟨t, h, hpc, hsteps, hactive⟩

theorem fetchTrace_of_core {s t : State} (n : Nat) (hcore : s.coreEnabled = true) (h : coreStep s = .next t) :
    fetchTrace (n + 1) s = s.fetchAddrs ++ fetchTrace n t := by
  rw [fetchTrace, if_pos hcore, h]

/-- A run fetches ascending addresses from PC on, at most three for each step of the budget left: each step goes on
where the one before it stopped. -/
theorem fetchTrace_eq_addrsFrom (n : Nat) (s : State) :
    ∃ m ≤ 3 * (1000 - s.steps), fetchTrace n s = addrsFrom s.pc m := by
  induction n generalizing s with
  | zero => exact ⟨0, Nat.zero_le _, rfl⟩
  | succ n ih =>
    by_cases hcore : s.coreEnabled = true
    · obtain ⟨t, hstep, hpc, hsteps, -⟩ := coreStep_completes s
      obtain ⟨m, hm, htrace⟩ := ih t
      obtain ⟨-, -, hbudget⟩ := State.coreEnabled_eq_true.mp hcore
      have hlength := instr_length_le_three s.fetchInstr.1
      refine ⟨s.fetchInstr.1.length + m, by omega, ?_⟩
      rw [fetchTrace_of_core n hcore hstep, htrace, hpc, addrsFrom_add, State.fetchAddrs_eq]
    · exact ⟨0, Nat.zero_le _, by rw [fetchTrace, if_neg hcore]; rfl⟩

/-- Settles O27: the addresses ascend from PC, and at most 3000 of them do not come back to where they began. -/
theorem noAddressFetchedTwice : Obligations.NoAddressFetchedTwice := by
  intro n s
  obtain ⟨m, hm, htrace⟩ := fetchTrace_eq_addrsFrom n s
  have hlength : (addrsFrom s.pc m).length = m := by rw [addrsFrom, List.length_map, List.length_range]
  rw [htrace, hlength]
  exact ⟨addrsFrom_nodup s.pc (by omega), by omega⟩

end Sys2Proof.Machine
end

section
/-! Proofs about spec/43_arithmetic.md: arithmetic wraps modulo the width of its destination (R71), and the flag convention
recorded for an addition (R73). -/

namespace Sys2Proof.Machine

/-! ### Wrapping -/

theorem Addr.toNat_add_one (a : Addr) : (a + 1).toNat = (a.toNat + 1) % 65536 := BitVec.toNat_add a 1

theorem Addr.toNat_sub_one (a : Addr) : (a - 1).toNat = (a.toNat + 65535) % 65536 := by
  rw [BitVec.toNat_sub, Nat.add_comm]
  rfl

/-- Settles O29: the sum of A and B is narrowed to a byte, and the three address moves to 16 bits. -/
theorem arithmeticWrapsModuloItsWidth : Obligations.ArithmeticWrapsModuloItsWidth :=
  ⟨addBCompletes, fun s => Addr.toNat_add_one s.pc, fun s => Addr.toNat_add_one s.wa, fun s => Addr.toNat_sub_one s.wa⟩

/-! ### The recorded flag convention -/

/-- Counting the elements with a property is adding up ones and zeros. -/
theorem length_filter_eq_sum (p : Nat → Bool) (ks : List Nat) :
    (ks.filter p).length = (ks.map fun k => (p k).toNat).sum := by
  induction ks with
  | nil => rfl
  | cons k ks ih =>
    cases hp : p k
    · rw [List.filter_cons_of_neg (by rw [hp]; decide), List.map_cons, List.sum_cons, hp, ih, Bool.toNat_false,
        Nat.zero_add]
    · rw [List.filter_cons_of_pos hp, List.map_cons, List.sum_cons, hp, List.length_cons, ih, Bool.toNat_true,
        Nat.add_comm]

/-- Bit `k` of a byte sum is bit `k` of the exact sum: narrowing drops only the bits above. -/
theorem toNat_getLsbD_add (x y : Byte) {k : Nat} (hk : k < 8) :
    ((x + y).getLsbD k).toNat = (x.toNat + y.toNat) / 2 ^ k % 2 := by
  have hbit : (x + y).getLsbD k = (x.toNat + y.toNat).testBit k := by
    rw [BitVec.getLsbD, BitVec.toNat_add, Nat.testBit_mod_two_pow, decide_eq_true hk, Bool.true_and]
  rw [hbit, Nat.toNat_testBit]

theorem onesCount_add (x y : Byte) :
    onesCount (x + y) = ((List.range 8).map fun k => (x.toNat + y.toNat) / 2 ^ k % 2).sum := by
  rw [onesCount, length_filter_eq_sum]
  exact congrArg List.sum (List.map_congr_left fun k hk => toNat_getLsbD_add x y (List.mem_range.mp hk))

theorem add_eq_zero_iff_mod (x y : Byte) : x + y = 0x00 ↔ (x.toNat + y.toNat) % 256 = 0 := by
  rw [← BitVec.toNat_inj, BitVec.toNat_add]
  rfl

theorem getLsbD_seven_add_iff (x y : Byte) : (x + y).getLsbD 7 = true ↔ 128 ≤ (x.toNat + y.toNat) % 256 := by
  have hbit := toNat_getLsbD_add x y (k := 7) (by decide)
  rw [← Bool.toNat_eq_one, hbit]
  omega

/-- Settles O34: each flag against the exact sum. -/
theorem flagConventionOfAnAddition : Obligations.FlagConventionOfAnAddition := by
  intro x y
  refine ⟨?zero, getLsbD_seven_add_iff x y, ?parity, decide_eq_true_iff, decide_eq_true_iff⟩
  case zero => exact decide_eq_true_iff.trans (add_eq_zero_iff_mod x y)
  case parity => rw [← onesCount_add]; exact decide_eq_true_iff

end Sys2Proof.Machine
end

section
/-! Proofs about the run of spec/40_execution_loop.md: its start (R52), its end (R57 to R60), that it ends within the
budget (R61), and that the block's steps are the pseudocode's run (R51). -/

namespace Sys2Proof.Machine

/-! ### The run start -/

/-- The event step of an Execute accepted outside Idle (R52, R90, R91). -/
theorem step_execute {s : State} {p : PortEvent} {rest : List PortEvent} (hs : s.Offered p rest)
    (he : p.event = .execute) (hmode : s.mode ≠ .idle) :
    step s = .next (State.startRun { s with input := rest, buf := [] }
      (if s.mode = .addressEntry then bufAddress s.buf else s.wa)) :=
  step_of_offered hs he (panelStep_execute_of_ne_idle (s := { s with input := rest }) hmode)

/-- Settles O35: the step is the run start on the state with the event taken off the port and the buffer cleared. -/
theorem runStartSetsOnlyTheRunRegisters : Obligations.RunStartSetsOnlyTheRunRegisters := by
  rintro s ⟨hactive, p, rest, hinput, he⟩ hmode
  have hregs : ∀ r, State.readReg { s with input := rest, buf := [] } r = s.readReg r := fun r => by cases r <;> rfl
  have htail : rest = s.input.tail := by rw [hinput]; rfl
  exact ⟨_, step_execute ⟨hactive, hinput⟩ he hmode, rfl, rfl, rfl, rfl,
    fun r => (State.readReg_startRun _ _ r).trans (hregs r), rfl, rfl, rfl, rfl, rfl, rfl, htail⟩

/-! ### The run end -/

/-- The step of a run that has halted is the run end (R57). -/
theorem step_of_halted {s : State} (hactive : s.active = true) (hhalted : s.halted = true) : step s = .next s.endRun :=
  step_of_runEnd (State.runEndEnabled_eq_true.mpr ⟨hactive, .inl hhalted⟩)

/-- Settles O36: HLT's step leads to a halted run, whose step is the run end. -/
theorem haltEndsTheRun : Obligations.HaltEndsTheRun := fun s hs hop =>
  ⟨_, hltStep s hs hop, rfl, rfl, step_of_halted hs.1 rfl⟩

/-- Settles O38: either condition enables the run end, which assigns `active` and the mode. -/
theorem runEndLeavesResultInA : Obligations.RunEndLeavesResultInA := by
  intro s hactive hend
  have hstep : step s = .next s.endRun :=
    step_of_runEnd (State.runEndEnabled_eq_true.mpr ⟨hactive, hend.imp_right Eq.ge⟩)
  exact ⟨_, hstep, rfl, rfl, rfl, rfl⟩

/-- Settles O39: with steps 999 the HLT is a core step still, and the step after it the run end. -/
theorem haltOnTheLastBudgetStep : Obligations.HaltOnTheLastBudgetStep := by
  intro s hactive hhalted hsteps hop
  have hrunning : s.Running := ⟨hactive, hhalted, by omega⟩
  have hhlt : step s = .next { s with pc := s.pc + 1, halted := true, steps := 1000 } := by
    rw [hltStep s hrunning hop, hsteps]
  have hend : step { s with pc := s.pc + 1, halted := true, steps := 1000 } =
      .next { s with pc := s.pc + 1, halted := true, steps := 1000, active := false, mode := .idle } :=
    step_of_halted hactive rfl
  rw [runSteps_next 1 hhlt, runSteps_next 0 hend]
  rfl

/-! ### From the run start to the run end -/

/-- `k` core steps lead from `s` to `u`, where the test of R53 fails and the run ends. -/
inductive CoreSteps : Nat → State → State → Prop
  | ended {u : State} (hend : u.runEndEnabled = true) : CoreSteps 0 u u
  | core {k : Nat} {s t u : State} (hs : s.Running) (hstep : coreStep s = .next t) (hrest : CoreSteps k t u) :
      CoreSteps (k + 1) s u

/-- Every core step counts one, so the budget bounds how many there are. -/
theorem exists_coreSteps {s : State} (hactive : s.active = true) : ∃ k ≤ 1000 - s.steps, ∃ u, CoreSteps k s u := by
  induction hbudget : 1000 - s.steps generalizing s with
  | zero =>
    have hend : s.runEndEnabled = true := runEndEnabled_of_not_running hactive fun ⟨_, _, hsteps⟩ => by omega
    exact ⟨0, le_rfl, s, .ended hend⟩
  | succ n ih =>
    by_cases hs : s.Running
    · obtain ⟨t, hstep, -, hsteps, hactive'⟩ := coreStep_completes s
      obtain ⟨k, hk, u, hrest⟩ := ih (hactive'.trans hactive) (by omega)
      exact ⟨k + 1, by omega, u, .core hs hstep hrest⟩
    · exact ⟨0, Nat.zero_le _, s, .ended (runEndEnabled_of_not_running hactive hs)⟩

/-- The block's step in a run with budget left is a round of the pseudocode's loop. -/
theorem step_eq_coreStep {s : State} (hs : s.Running) : step s = coreStep s := step_of_core hs.coreEnabled

theorem CoreSteps.runEndEnabled {k : Nat} {s u : State} (h : CoreSteps k s u) : u.runEndEnabled = true := by
  induction h with
  | ended hend => exact hend
  | core _ _ _ ih => exact ih

theorem CoreSteps.runSteps_eq {k : Nat} {s u : State} (h : CoreSteps k s u) : runSteps k s = .next u := by
  induction h with
  | ended _ => rfl
  | core hs hstep _ ih => rw [runSteps_next _ ((step_eq_coreStep hs).trans hstep), ih]

/-- On the way the run stays active, and each step is counted. -/
theorem CoreSteps.runSteps_of_le {k : Nat} {s u : State} (h : CoreSteps k s u) {j : Nat} (hj : j ≤ k) :
    ∃ v, runSteps j s = .next v ∧ v.active = true ∧ v.steps = s.steps + j := by
  induction h generalizing j with
  | ended hend =>
    obtain rfl : j = 0 := Nat.le_zero.mp hj
    exact ⟨_, rfl, active_of_runEndEnabled hend, rfl⟩
  | @core k s t u hs hstep hrest ih =>
    cases j with
    | zero => exact ⟨s, rfl, hs.1, rfl⟩
    | succ j =>
      obtain ⟨v, hrun, hactive, hsteps⟩ := ih (Nat.le_of_succ_le_succ hj)
      obtain ⟨t', hstep', -, hcount, -⟩ := coreStep_completes s
      obtain rfl : t' = t := Host.Outcome.next.inj (hstep'.symm.trans hstep)
      refine ⟨v, ?_, hactive, by omega⟩
      rw [runSteps_next j ((step_eq_coreStep hs).trans hstep), hrun]

theorem CoreSteps.steps_eq {k : Nat} {s u : State} (h : CoreSteps k s u) : u.steps = s.steps + k := by
  obtain ⟨v, hrun, -, hsteps⟩ := h.runSteps_of_le le_rfl
  obtain rfl : v = u := Host.Outcome.next.inj (hrun.symm.trans h.runSteps_eq)
  exact hsteps

/-- One step more is the run end. -/
theorem CoreSteps.runSteps_succ_eq {k : Nat} {s u : State} (h : CoreSteps k s u) :
    runSteps (k + 1) s = .next u.endRun := by
  rw [runSteps_add 1 h.runSteps_eq, runSteps_next 0 (step_of_runEnd h.runEndEnabled), runSteps]

/-- The pseudocode's loop takes the same steps, and stops where its test fails. -/
theorem CoreSteps.runLoop_eq {k : Nat} {s u : State} (h : CoreSteps k s u) {fuel : Nat} (hfuel : k ≤ fuel) :
    runLoop fuel s = .next u := by
  induction h generalizing fuel with
  | @ended u hend =>
    cases fuel with
    | zero => rfl
    | succ fuel =>
      have htest : ¬u.runTest = true := fun ht =>
        not_running_of_runEndEnabled hend ⟨active_of_runEndEnabled hend, State.runTest_eq_true.mp ht⟩
      rw [runLoop, if_neg htest]
  | core hs hstep _ ih =>
    obtain ⟨fuel, rfl⟩ := Nat.exists_eq_add_of_le' (Nat.one_le_of_lt hfuel)
    rw [runLoop, if_pos (State.runTest_eq_true.mpr hs.2), hstep]
    exact ih (Nat.le_of_succ_le_succ hfuel)

/-- Settles O40: the core steps to the run end, then the run end, which keeps `steps`. -/
theorem everyRunEndsWithinTheBudget : Obligations.EveryRunEndsWithinTheBudget := by
  intro s hactive
  obtain ⟨k, hk, u, hrun⟩ := exists_coreSteps hactive
  exact ⟨k, hk, fun _ hj => hrun.runSteps_of_le hj, u.endRun, hrun.runSteps_succ_eq, u.endRun_active, hrun.steps_eq⟩

/-! ### The pseudocode -/

/-- Of the transition table's rules, only Execute's outside Idle starts a run. -/
theorem PanelMove.execute_of_active {s t : State} {e : Event} (h : PanelMove s e t) (hs : s.active = false)
    (ht : t.active = true) : e = .execute ∧ s.mode ≠ .idle := by
  have hkept {P : Prop} (heq : t.active = s.active) : P := absurd (heq.symm.trans ht) (by rw [hs]; decide)
  cases h with
  | execute he hmode _ => exact ⟨he, hmode⟩
  | reset _ hreset => rw [hreset] at ht; cases ht
  | deposit wa _ _ hdeposit => exact hkept (by rw [hdeposit])
  | ignored _ _ heq => exact hkept (by rw [heq])
  | key d _ _ heq => exact hkept (by rw [heq])
  | enterAddress _ heq => exact hkept (by rw [heq])
  | commitAddress _ _ heq => exact hkept (by rw [heq])

theorem accepts_execute_of_active {s t : State} (h : step s = .next t) (hs : s.active = false) (ht : t.active = true) :
    s.accepts .execute ∧ s.mode ≠ .idle := by
  cases stepMove_of_step h with
  | core hrunning _ => exact absurd hrunning (not_running_of_inactive hs)
  | runEnd hend _ => exact absurd (active_of_runEndEnabled hend) (by rw [hs]; decide)
  | waiting _ _ heq => rw [heq, hs] at ht; cases ht
  | event p rest hoffered hmove =>
    obtain ⟨he, hmode⟩ := hmove.execute_of_active hs ht
    exact ⟨accepts_of_offered hoffered he, hmode⟩

/-- From a run start within the whole budget the loop ends as the core steps do, and the run end follows. -/
theorem runProgram_of_coreSteps {k : Nat} {s u : State} {start : Addr} (h : CoreSteps k (s.startRun start) u)
    (hk : k ≤ Config.stepBudget) : runProgram start s = .next u.endRun := by
  rw [runProgram, h.runLoop_eq hk]

/-- Settles O41: the event step is the pseudocode's run start, and its loop and the block take the same core steps. -/
theorem executeRunsThePseudocode : Obligations.ExecuteRunsThePseudocode := by
  refine ⟨fun s t h hs ht => accepts_execute_of_active h hs ht, fun s p rest hs he hmode => ?_⟩
  have hstart := step_execute hs he hmode
  obtain ⟨k, hk, u, hrun⟩ := exists_coreSteps (State.startRun_active { s with input := rest, buf := [] }
    (if s.mode = .addressEntry then bufAddress s.buf else s.wa))
  have hsteps : u.steps = k := by rw [hrun.steps_eq, State.startRun_steps, Nat.zero_add]
  exact ⟨u.endRun, k, hk, runProgram_of_coreSteps hrun hk, by rw [runSteps_next (k + 1) hstart, hrun.runSteps_succ_eq],
    hsteps, rfl, rfl⟩

end Sys2Proof.Machine
end

section
/-! Proofs about the buffer and the outputs of spec/48_front_panel.md: the buffer's value and its low byte (R78, R79), and
the 23 observation outputs (R74, R96). -/

namespace Sys2Proof.Machine

/-! ### The buffer's value -/

theorem bufValue_eq_ofDigits (ds : List Digit) : bufValue ds = Nat.ofDigits 16 (ds.reverse.map BitVec.toNat) := by
  induction ds using List.reverseRecOn with
  | nil => rfl
  | append_singleton ds d ih =>
    rw [bufValue_append_singleton, List.reverse_append, List.reverse_singleton, List.singleton_append, List.map_cons,
      Nat.ofDigits_cons, ih]
    omega

/-- Settles O49: a digit entered last is the least significant, and four digits fit 16 bits. -/
theorem bufferValueIsHexadecimal : Obligations.BufferValueIsHexadecimal := fun ds _ hlength =>
  ⟨bufValue_eq_ofDigits ds, Nat.le_of_lt_succ (bufValue_lt_of_length_le hlength)⟩

/-- Two digits put together, the first the high one (R7). -/
theorem toNat_append_digits (x y : Digit) : (x ++ y).toNat = x.toNat * 16 + y.toNat := by
  rw [BitVec.toNat_append, ← Nat.shiftLeft_add_eq_or_of_lt y.isLt, Nat.shiftLeft_eq]

theorem toNat_bufByte (ds : List Digit) : (bufByte ds).toNat = bufValue ds % 256 := BitVec.toNat_ofNat _ _

theorem bufByte_append_pair (ds : List Digit) (x y : Digit) : bufByte (ds ++ [x, y]) = x ++ y := by
  have hvalue : bufValue (ds ++ [x, y]) = (bufValue ds * 16 + x.toNat) * 16 + y.toNat := by
    rw [← bufValue_append_singleton, ← bufValue_append_singleton, List.append_assoc, List.singleton_append]
  have hx : x.toNat < 16 := x.isLt
  have hy : y.toNat < 16 := y.isLt
  refine BitVec.eq_of_toNat_eq ?_
  rw [toNat_bufByte, hvalue]
  exact Eq.trans (by omega) (toNat_append_digits x y).symm

/-- Settles O50: the digits before the last two are multiples of 256, and a single digit stands for itself. -/
theorem depositByteIsLastTwoDigits : Obligations.DepositByteIsLastTwoDigits := by
  refine ⟨bufByte_append_pair, fun y => ?single⟩
  case single =>
    have hy : y.toNat < 16 := y.isLt
    have hvalue : bufValue [y] = y.toNat := Nat.zero_add _
    refine BitVec.eq_of_toNat_eq ?_
    rw [toNat_bufByte, hvalue, Nat.mod_eq_of_lt (by omega)]
    exact Eq.trans (by simp) (toNat_append_digits 0 y).symm

/-! ### The outputs -/

/-- The hexadecimal place `k` of the buffer's value is the digit entered `k` before the newest, and 0 where there is
none. -/
theorem bufValue_place (ds : List Digit) (k : Nat) : bufValue ds / 16 ^ k % 16 = (ds.reverse.getD k 0x0).toNat := by
  induction ds using List.reverseRecOn generalizing k with
  | nil =>
    rw [bufValue, List.foldl_nil, Nat.zero_div]
    rfl
  | append_singleton ds d ih =>
    have hd : d.toNat < 16 := d.isLt
    rw [bufValue_append_singleton, List.reverse_append, List.reverse_singleton, List.singleton_append]
    cases k with
    | zero =>
      rw [Nat.pow_zero, Nat.div_one, List.getD_cons_zero]
      omega
    | succ k =>
      have hshift : (bufValue ds * 16 + d.toNat) / 16 = bufValue ds := by omega
      rw [List.getD_cons_succ, Nat.pow_succ', ← Nat.div_div_eq_div_mul, hshift, ih]

/-- The 4-bit groups of `buf_digits` (R74), where the buffer's digits fit them. -/
theorem bufDigits_group {ds : List Digit} (h : ds.length ≤ 4) (k : Nat) :
    (BitVec.ofNat 16 (bufValue ds)).extractLsb' (4 * k) 4 = ds.reverse.getD k 0x0 := by
  refine BitVec.eq_of_toNat_eq ?_
  rw [BitVec.extractLsb'_toNat, BitVec.toNat_ofNat, Nat.mod_eq_of_lt (bufValue_lt_of_length_le h),
    Nat.shiftRight_eq_div_pow, Nat.pow_mul]
  exact bufValue_place ds k

/-- Settles O55: the counts and the digits fit their signals, and every other signal is the field it names. -/
theorem outputsShowTheState : Obligations.OutputsShowTheState := by
  intro s hlength hsteps
  have hbufLen : s.outputs.bufLen.toNat = s.buf.length := Nat.mod_eq_of_lt (by omega)
  have hrunSteps : s.outputs.runSteps.toNat = s.steps := Nat.mod_eq_of_lt (by omega)
  refine ⟨rfl, rfl, ?mode, rfl, hbufLen, fun k _ => bufDigits_group hlength k, rfl, rfl, rfl, rfl, rfl, rfl, rfl, rfl, rfl,
    rfl, rfl, rfl, rfl, rfl, rfl, rfl, hrunSteps⟩
  case mode =>
    change s.mode.code = _
    cases s.mode <;> rfl

end Sys2Proof.Machine
end

section
/-! Proofs about the front panel of spec/48_front_panel.md: the events the port codes name (R74), each event's effect
(R80, R83, R85, R86, R88 to R91, R93), what enters DataEntry (R95), and that events are held during a run (R75). -/

namespace Sys2Proof.Machine

/-! ### The port codes -/

theorem PortEvent.event_of_code_001 {p : PortEvent} (h : p.code = 0b001) : p.event = .reset := by
  simp [PortEvent.event, h]

theorem PortEvent.event_of_code_010 {p : PortEvent} (h : p.code = 0b010) : p.event = .examineMemory := by
  simp [PortEvent.event, h]

theorem PortEvent.event_of_code_101 {p : PortEvent} (h : p.code = 0b101) : p.event = .go := by
  simp [PortEvent.event, h]

theorem PortEvent.event_of_code_111 {p : PortEvent} (h : p.code = 0b111) : p.event = .reserved := by
  simp [PortEvent.event, h]

/-- Settles O42: one lemma per code. -/
theorem portCodesNameTheEvents : Obligations.PortCodesNameTheEvents := fun _ =>
  ⟨PortEvent.event_of_code_000 rfl, PortEvent.event_of_code_001 rfl, PortEvent.event_of_code_010 rfl,
    PortEvent.event_of_code_011 rfl, PortEvent.event_of_code_100 rfl, PortEvent.event_of_code_101 rfl,
    PortEvent.event_of_code_110 rfl, PortEvent.event_of_code_111 rfl⟩

/-! ### The events' effects -/

/-- Settles O44: both events meet a cell of the table that leaves the state as the port's read left it. -/
theorem eventsIgnoredByDecision : Obligations.EventsIgnoredByDecision := by
  rintro s p rest hs (⟨hcode, hmode⟩ | hcode)
  · exact step_of_offered hs (PortEvent.event_of_code_011 hcode) (panelStep_next_of_idle hmode)
  · exact step_of_offered hs (PortEvent.event_of_code_111 hcode) (panelStep_reserved _)

/-- Settles O46: the two events have the same rule in every mode. -/
theorem examineAndGoEnterAddressEntry : Obligations.ExamineAndGoEnterAddressEntry := by
  rintro s p rest hs (hcode | hcode)
  · exact step_of_offered hs (PortEvent.event_of_code_010 hcode) (panelStep_examineMemory _)
  · exact step_of_offered hs (PortEvent.event_of_code_101 hcode) (panelStep_go _)

theorem State.panelDeposit_mem_withInput (s : State) (q : List PortEvent) :
    (State.panelDeposit { s with input := q }).mem = s.panelDeposit.mem := by
  rw [State.panelDeposit_mem, State.panelDeposit_mem]

/-- The event step of Next or Previous in DataEntry: the deposit, and the working address moved up or down. -/
theorem step_deposit {s : State} {p : PortEvent} {rest : List PortEvent} (hs : s.Offered p rest)
    (hmode : s.mode = .dataEntry) {wa : Addr}
    (hcode : p.code = 0b011 ∧ wa = s.wa + 1 ∨ p.code = 0b100 ∧ wa = s.wa - 1) :
    step s = .next { s with input := rest, mem := s.panelDeposit.mem, wa := wa, buf := [] } := by
  obtain ⟨hcode, rfl⟩ | ⟨hcode, rfl⟩ := hcode
  · have hpanel := panelStep_next_of_dataEntry (s := { s with input := rest }) hmode
    rw [s.panelDeposit_mem_withInput] at hpanel
    exact step_of_offered hs (PortEvent.event_of_code_011 hcode) hpanel
  · have hpanel := panelStep_previous_of_dataEntry (s := { s with input := rest }) hmode
    rw [s.panelDeposit_mem_withInput] at hpanel
    exact step_of_offered hs (PortEvent.event_of_code_100 hcode) hpanel

theorem memRead_deposit_at_wa {s : State} (h : s.buf ≠ []) : (s.panelDeposit.memRead s.wa).toNat = bufValue s.buf % 256 := by
  rw [State.panelDeposit_memRead, if_pos ⟨h, rfl⟩, toNat_bufByte]

theorem memRead_deposit_elsewhere {s : State} {x : Addr} (h : s.buf = [] ∨ x ≠ s.wa) :
    s.panelDeposit.memRead x = s.memRead x := by
  rw [State.panelDeposit_memRead, if_neg fun ⟨hbuf, hx⟩ => h.elim hbuf (absurd hx)]

/-- Settles O48: both events deposit alike, and the code says which way the address moves. -/
theorem depositStoresAndMovesAddress : Obligations.DepositStoresAndMovesAddress := by
  intro s p rest hs hcode hmode
  obtain hcode | hcode := hcode
  · exact ⟨_, step_deposit hs hmode (.inl ⟨hcode, rfl⟩), fun _ => Addr.toNat_add_one s.wa,
      fun h => absurd (hcode.symm.trans h) (by decide), memRead_deposit_at_wa, fun _ => memRead_deposit_elsewhere, rfl⟩
  · exact ⟨_, step_deposit hs hmode (.inr ⟨hcode, rfl⟩), fun h => absurd (hcode.symm.trans h) (by decide),
      fun _ => Addr.toNat_sub_one s.wa, memRead_deposit_at_wa, fun _ => memRead_deposit_elsewhere, rfl⟩

/-- The start address of R90 and R91, told by the mode that takes the working address. -/
theorem startAddress_eq {s : State} (hmode : s.mode ≠ .idle) :
    (if s.mode = .addressEntry then bufAddress s.buf else s.wa) =
      if s.mode = .dataEntry then s.wa else if s.buf = [] then 0x0000 else BitVec.ofNat 16 (bufValue s.buf) := by
  cases hm : s.mode with
  | idle => exact absurd hm hmode
  | addressEntry =>
    rw [if_pos rfl, if_neg (by decide)]
    cases s.buf <;> rfl
  | dataEntry => rw [if_neg (by decide), if_pos rfl]

/-- Settles O51: the event step is the run start at the mode's start address. -/
theorem executeStartsTheRun : Obligations.ExecuteStartsTheRun := by
  intro s p rest hs hcode hmode
  rw [step_execute hs (PortEvent.event_of_code_110 hcode) hmode, startAddress_eq hmode]
  rfl

/-- Settles O52: the rule for Reset is the power-on state with memory and the presented events kept. -/
theorem resetEventAssignsResetValues : Obligations.ResetEventAssignsResetValues := by
  intro s p rest hs hcode
  have hstep : step s = .next { State.powerOn s.mem with input := rest } :=
    step_of_offered hs (PortEvent.event_of_code_001 hcode) (panelStep_reset _)
  exact ⟨hstep, hstep⟩

/-! ### What enters DataEntry -/

/-- Of the transition table's rules, only the one for Next in AddressEntry enters DataEntry. -/
theorem PanelMove.commit_of_enters_dataEntry {s t : State} {e : Event} (h : PanelMove s e t) (hs : s.mode ≠ .dataEntry)
    (ht : t.mode = .dataEntry) : e = .next ∧ s.mode = .addressEntry ∧ t.wa = bufAddress s.buf := by
  cases h with
  | commitAddress he hmode heq => exact ⟨he, hmode, by rw [heq]⟩
  | reset _ heq => rw [heq] at ht; cases ht
  | enterAddress _ heq => rw [heq] at ht; cases ht
  | deposit _ _ hmode _ => exact absurd hmode hs
  | ignored _ _ heq => rw [heq] at ht; exact absurd ht hs
  | key d _ _ heq => rw [heq] at ht; exact absurd ht hs
  | execute _ _ heq => rw [heq] at ht; exact absurd ht hs

/-- Settles O53: the other kinds of step keep the mode or lead to Idle. -/
theorem dataEntryEnteredOnlyByNext : Obligations.DataEntryEnteredOnlyByNext := by
  intro s t h hs ht
  cases stepMove_of_step h with
  | core _ hmove =>
    obtain ⟨-, -, hmode, -⟩ := hmove.frame
    exact absurd (hmode.symm.trans ht) hs
  | runEnd _ heq => rw [heq] at ht; cases ht
  | waiting _ _ heq => rw [heq] at ht; exact absurd ht hs
  | event p rest hoffered hmove =>
    obtain ⟨he, hcommit⟩ := hmove.commit_of_enters_dataEntry hs ht
    exact ⟨accepts_of_offered hoffered he, hcommit⟩

/-! ### Events during a run -/

theorem State.fetchOperands_withInput (entry : Entry) (s : State) (q : List PortEvent) :
    State.fetchOperands entry { s with input := q } =
      ((State.fetchOperands entry s).1, { (State.fetchOperands entry s).2 with input := q }) := by
  cases entry <;> rfl

theorem State.fetchInstr_withInput (s : State) (q : List PortEvent) :
    State.fetchInstr { s with input := q } = (s.fetchInstr.1, { s.fetchInstr.2 with input := q }) :=
  State.fetchOperands_withInput _ s.fetchByte.2.countStep q

theorem exec_withInput {i : Instr} {s t : State} (h : exec i s = .next t) (q : List PortEvent) :
    exec i { s with input := q } = .next { t with input := q } := by
  obtain ⟨rfl, rfl⟩ | ⟨rfl, rfl⟩ | ⟨d8, rfl, rfl⟩ | ⟨d8, rfl, rfl⟩ | ⟨rfl, rfl⟩ | ⟨a16, rfl, rfl⟩ | ⟨op, rfl, rfl⟩ :=
    exec_cases h <;> rfl

/-- A step of a run goes the same way whatever is presented, and leaves it presented. -/
theorem step_withInput {s t : State} (h : step s = .next t) (hactive : s.active = true) (q : List PortEvent) :
    step { s with input := q } = .next { t with input := q } := by
  by_cases hs : s.Running
  · have hexec := (step_of_core hs.coreEnabled).symm.trans h
    have hs' : State.Running { s with input := q } := hs
    rw [step_of_core hs'.coreEnabled, State.fetchInstr_withInput]
    exact exec_withInput hexec q
  · have hend := runEndEnabled_of_not_running hactive hs
    have ht : t = s.endRun := Host.Outcome.next.inj (h.symm.trans (step_of_runEnd hend))
    rw [ht]
    exact step_of_runEnd (s := { s with input := q }) hend

/-- The transition table does not look at what is presented behind the event accepted. -/
theorem PanelMove.keeps_input {s t : State} {e : Event} (h : PanelMove s e t) : t.input = s.input := by
  cases h with
  | ignored _ _ ht => rw [ht]
  | reset _ ht => rw [ht]; rfl
  | key d _ _ ht => rw [ht]
  | enterAddress _ ht => rw [ht]
  | commitAddress _ _ ht => rw [ht]
  | deposit wa _ _ ht => rw [ht]
  | execute _ _ ht => rw [ht, State.startRun_input]

/-- Settles O54: the steps of a run commute with replacing the presented events, and an event step takes one. -/
theorem eventsAreHeldDuringARun : Obligations.EventsAreHeldDuringARun := by
  refine ⟨fun s q hactive => ?held, fun s p rest hs => ?consumed⟩
  case held =>
    obtain ⟨t, h⟩ := step_completes s
    have hself : Host.Outcome.next t = .next { t with input := s.input } := h.symm.trans (step_withInput h hactive s.input)
    have hinput := congrArg State.input (Host.Outcome.next.inj hself)
    exact ⟨t, h, hinput, step_withInput h hactive q⟩
  case consumed =>
    exact ⟨_, step_of_offered hs rfl rfl, (panelMove_panelStep { s with input := rest } p.event).keeps_input⟩

end Sys2Proof.Machine
end
